-- ==== Sys2Proof/Word.lean ====
section
/-! DEFINITION. The word types of the block: bytes, 16-bit register fields, 32-bit bus words and 16-bit bus
addresses (00_scope.md R8, R9; 20_memory.md R60, R61). -/

namespace Sys2Proof

/-- One byte, an 8-bit unsigned value (R9). -/
abbrev Byte := BitVec 8

/-- A 16-bit register field, such as HDR_EXP[15:0] or RESULT[15:0] (R26, R28). -/
abbrev Half := BitVec 16

/-- One 32-bit bus transfer's data (R61) and the width of every register (R8). -/
abbrev Word := BitVec 32

/-- A 16-bit byte address of the host register space (R60). -/
abbrev Addr := BitVec 16

end Sys2Proof
end

