-- ==== Sys2Proof/Syntax.lean ====
section
/-! DEFINITION. The instructions: one constructor for each row of spec/opcode_table.json, in the table's order
(the four ILLEGAL rows among them: DEDUCED, safe, log entry 11).
A CMD row is a word written to the CMD register (30_encoding.md R80-R83); a BUS-WRITE row is a bus write to its
address (20_memory.md R67, R68). Every operand of a command is an implicit register or buffer (R93). -/

namespace Sys2Proof

/-- The operations a host starts with one bus write. -/
inductive Instr where
  /-- CMD word 1: build a frame into OBUF (R113). -/
  | fbuild
  /-- CMD word 2: length probe of IBUF (R118). -/
  | fprobe
  /-- CMD word 3: parse the frame at the start of IBUF (R123). -/
  | fparse
  /-- CMD word 4: total size of the layout (R145). -/
  | lsize
  /-- CMD word 5: decode IBUF into the record (R148). -/
  | fdecode
  /-- CMD word 6: encode the record into OBUF (R151). -/
  | fencode
  /-- CMD word 0: ILLEGAL, OP = 0x0 is reserved (R83, R175). -/
  | illegalZero
  /-- CMD word 7: ILLEGAL, OP = 0x7 is reserved (R83, R175). -/
  | illegalSeven
  /-- CMD words 8 to 15: ILLEGAL, OP = 0x8..0xF are reserved; `low` is bits 2:0 (R83, R175). -/
  | illegalHigh (low : BitVec 3)
  /-- ILLEGAL, the table's fallback row: a CMD word whose bits 31:4 are not 0, whatever OP is (R81, R175). -/
  | illegalMbz (v : Word)
  /-- A bus write to IPUSH: append data bits 7:0 to IBUF (R67). -/
  | ipush (b : Byte)
  /-- A bus write to ICLR, any data: empty IBUF (R68). -/
  | iclr
  deriving DecidableEq, Repr

end Sys2Proof
end

