-- ==== Sys2Proof/WellFormed.lean ====
section
/-! DEFINITION. Which terms of `Instr` stand for a bus write: the one check is the must-be-zero field of the CMD
word (30_encoding.md R80, R81). -/

namespace Sys2Proof

/-- `illegalMbz v` stands for a CMD word whose bits 31:4 are not 0; a word whose bits 31:4 are 0 is one of the other
CMD rows (R81: bits 31:4 are looked at first). Every other term is well formed: its fields have exactly the bits
its row leaves free. -/
def Instr.wf : Instr → Bool
  | .illegalMbz v => v.extractLsb' 4 28 != 0
  | .fbuild | .fprobe | .fparse | .lsize | .fdecode | .fencode => true
  | .illegalZero | .illegalSeven | .illegalHigh _ => true
  | .ipush _ | .iclr => true

end Sys2Proof
end

