-- ==== Sys2Proof/Decode.lean ====
section
/-! DEFINITION. The address map (20_memory.md R62), the decoder of a CMD word (30_encoding.md R81) and of a bus write,
total on every address and data word, rejecting by name; after it the encoder, and the reading of an opcode-table
row as a bus write. -/

namespace Sys2Proof

/-- A location of the host register space (R62). The array indexes are the map's `i`. -/
inductive Loc where
  | ctrl | cmd | status | result | hdrExp | bhdr | baddr | bcmd | ilen | ipush | iclr | olen
  | fhdr | faddr | fcmd | flen | fsum | lcount | rpresLo | rpresHi | info
  | layout (i : Fin 64)
  | rval (i : Fin 64)
  | fpay (i : Nat)
  | obuf (i : Nat)
  | rimg (i : Nat)
  | ibuf (i : Nat)
  | unmapped
  deriving DecidableEq, Repr

/-- The map of R62 on word indexes (byte address divided by 4). -/
def locateWord (k : Nat) : Loc :=
  match k with
  | 0 => .ctrl
  | 1 => .cmd
  | 2 => .status
  | 3 => .result
  | 4 => .hdrExp
  | 5 => .bhdr
  | 6 => .baddr
  | 7 => .bcmd
  | 8 => .ilen
  | 9 => .ipush
  | 10 => .iclr
  | 11 => .olen
  | 12 => .fhdr
  | 13 => .faddr
  | 14 => .fcmd
  | 15 => .flen
  | 16 => .fsum
  | 17 => .lcount
  | 18 => .rpresLo
  | 19 => .rpresHi
  | 20 => .info
  | k =>
    if k < 0x40 then .unmapped
    else if k < 0x80 then .layout (Fin.ofNat 64 (k - 0x40))
    else if k < 0xC0 then .rval (Fin.ofNat 64 (k - 0x80))
    else if k < 0x100 then .unmapped
    else if k < 0x200 then .fpay (k - 0x100)
    else if k < 0x400 then .unmapped
    else if k < 0x800 then .obuf (k - 0x400)
    else if k < 0xC00 then .rimg (k - 0x800)
    else if k < 0x1000 then .ibuf (k - 0xC00)
    else .unmapped

/-- A transfer at `a` acts at the word address `a & 0xFFFC`: address bits 1:0 are ignored (R61). -/
def locate (a : Addr) : Loc := locateWord (a.toNat / 4)

/-- A write to CMD decodes to exactly one behaviour, bits 31:4 looked at first (R81). -/
def decodeCmd (v : Word) : Instr :=
  if v.extractLsb' 4 28 != 0 then .illegalMbz v
  else match (v.extractLsb' 0 4).toNat with
    | 0 => .illegalZero
    | 1 => .fbuild
    | 2 => .fprobe
    | 3 => .fparse
    | 4 => .lsize
    | 5 => .fdecode
    | 6 => .fencode
    | 7 => .illegalSeven
    | _ => .illegalHigh (v.extractLsb' 0 3)

/-- Why a bus write is no instruction. -/
inductive DecodeError where
  /-- The write is to a location that is not CMD, IPUSH or ICLR: a register or window store (R65), or a write that is
  ignored (R63). -/
  | notACommand (l : Loc)
  deriving DecidableEq, Repr

/-- The instruction a bus write `MemWrite(a, 4, v)` starts: a write to CMD, IPUSH or ICLR (R66); every other write is
rejected by the name of its location. -/
def decodeWrite (a : Addr) (v : Word) : Except DecodeError Instr :=
  match locate a with
  | .cmd => .ok (decodeCmd v)
  | .ipush => .ok (.ipush (v.extractLsb' 0 8))
  | .iclr => .ok .iclr
  | l => .error (.notACommand l)

/-- A bus write's address and data. -/
structure BusWrite where
  addr : Addr
  data : Word
  deriving DecidableEq, Repr

/-- The bus write that stands for a well-formed instruction, from the tables of R62 and R82. IPUSH's data bits 31:8 and
ICLR's data are ignored by the block (R67, R68); the encoder writes them 0. -/
def encode : Instr → BusWrite
  | .fbuild => ⟨0x0004, 0x00000001⟩
  | .fprobe => ⟨0x0004, 0x00000002⟩
  | .fparse => ⟨0x0004, 0x00000003⟩
  | .lsize => ⟨0x0004, 0x00000004⟩
  | .fdecode => ⟨0x0004, 0x00000005⟩
  | .fencode => ⟨0x0004, 0x00000006⟩
  | .illegalZero => ⟨0x0004, 0x00000000⟩
  | .illegalSeven => ⟨0x0004, 0x00000007⟩
  | .illegalHigh low => ⟨0x0004, (1 : BitVec 29) ++ low⟩
  | .illegalMbz v => ⟨0x0004, v⟩
  | .ipush b => ⟨0x0024, b.setWidth 32⟩
  | .iclr => ⟨0x0028, 0x00000000⟩

/-- The bus write an opcode-table row stands for (DEDUCED, safe, log entry 12). A row of 32 bits is a CMD word: the data of a write to
CMD. A row of fewer bits is a BUS-WRITE row: its bits 15:0 are the write's address, and the data word counts on
above them, so it is 0 where the row gives it no bits. -/
def tableWrite (nbits w : Nat) : BusWrite :=
  if nbits = 32 then ⟨0x0004, BitVec.ofNat 32 w⟩
  else ⟨BitVec.ofNat 16 w, BitVec.ofNat 32 (w / 2 ^ 16)⟩

/-- What the decoder reads from an opcode-table row's word. -/
def decodeTableWord (nbits w : Nat) : Option Instr :=
  match decodeWrite (tableWrite nbits w).addr (tableWrite nbits w).data with
  | .ok i => some i
  | .error _ => none

end Sys2Proof
end

