-- ==== Sys2Proof/Config.lean ====
section
/-! DEFINITION. What the source fixes (R7), what the spec decides (R8) and the two parameters it leaves OPEN
(BUF_SIZE, NATIVE_ORDER), which are constants without a value here. -/

namespace Sys2Proof

/-- A resolved byte order: big-endian or little-endian (R143). -/
inductive ByteOrder where
  | be
  | le
  deriving DecidableEq, Repr, Inhabited

namespace Config

/-- `PREFIX`: header, address, command and length bytes in front of the payload (R7). -/
def framePrefix : Nat := 5

/-- `MAX_PAYLOAD`: the largest value of a one-byte length (R7). -/
def maxPayload : Nat := 255

/-- `MAX_FIELDS`, decided (R8). -/
def maxFields : Nat := 64

/-- The least BUF_SIZE the spec admits, `MAX_FRAME` (R7, R8). -/
def bufSizeMin : Nat := 261

/-- The largest BUF_SIZE the spec admits (R8). -/
def bufSizeMax : Nat := 1024

/-- FREE VALUE, safe (log entry 5): which BUF_SIZE this block has. No body, so no proof can learn a value of it. -/
opaque bufSizeDraw : Nat

/-- `BUF_SIZE`, the size of each of IBUF, OBUF and RIMG: OPEN, any value from 261 to 1024 (R8, D14). Every value
of that range is some draw's, and no other value is. -/
def bufSize : Nat := (763 - bufSizeDraw % 764) + 261

/-- FREE VALUE, safe (log entry 6), `NATIVE_ORDER`: OPEN, big- or little-endian (R8, R143, D15). -/
opaque nativeOrder : ByteOrder

/-- `n ≤ BUF_SIZE`, decided without BUF_SIZE where every admitted BUF_SIZE gives the same answer, so that a step on
small buffers can be evaluated although BUF_SIZE is open (DEDUCED, safe, log entry 7). It is `n ≤ bufSize`, by
`Sys2Proof.Laws.inBuf_iff`. -/
def inBuf (n : Nat) : Bool := decide (n ≤ bufSizeMin) || (decide (n ≤ bufSizeMax) && decide (n ≤ bufSize))

end Config

end Sys2Proof
end

