-- ==== Sys2Proof/Machine/State.lean ====
section
/-! DEFINITION. The state of the block as plain data (10_state.md R39), the host's side of the bus, the reasons a step
can stop, and the state after reset (70_reset_and_hazards.md R190). -/

namespace Sys2Proof.Machine

open Sys2Proof

/-- The block has no fault: every error is a status code in an ordinary next state (60_exceptions.md R172, R174), and
the bus has no error response (20_memory.md R61). So this type has no constructor, and no step can fault.
DEDUCED, safe (log entry 15). -/
inductive Fault where
  deriving DecidableEq, Repr

/-- Why an instruction has no meaning. -/
inductive Refusal where
  /-- Raised by `exec` alone, in the arm of an instruction that has no meaning yet; every instruction has one here, so
  nothing raises it. Safe: the machine stops. -/
  | notModelled (mnemonic : String)
  deriving DecidableEq, Repr

/-- The error codes the block can write to STATUS.ERR (60_exceptions.md R170). Codes 10 to 15 are reserved and never
written (I14), so they have no constructor. DEDUCED, safe (log entry 14). -/
inductive ErrCode where
  | ok
  | insufficientData
  | headerMismatch
  | checksumMismatch
  | bufferTooSmall
  | missingField
  | valueRange
  | layoutInvalid
  | payloadTooLong
  | illegalOp
  deriving DecidableEq, Repr

/-- Byte storage by index in one canonical form: indexes strictly rising, no entry for a byte that is 0. An index that
is not listed reads 0, the reset value the spec gives RIMG (R190). DEDUCED, safe (log entry 9). -/
abbrev Memory := List Host.Cell

/-- One thing the host or the platform does to the block: a bus read, a bus write (R61), or the reset input (R190). -/
inductive HostEvent where
  | read (a : Addr)
  | write (a : Addr) (v : Word)
  | reset
  deriving DecidableEq, Repr

/-- The complete state. The fields down to `rimg` are the tuple of R39, under its names; `pending` and `answers` are
the MODEL'S OWN record of the host's side of the bus (DESIGN CHOICE, safe, log entries 1 and 2). -/
structure State where
  /-- CTRL.VC (R23). -/
  vc : Bool
  /-- CTRL.VH (R23). -/
  vh : Bool
  /-- STATUS.ERR (R25, R170). -/
  err : ErrCode
  /-- STATUS.HDR_OK (R25). -/
  hdrOk : Bool
  /-- STATUS.CSUM_OK (R25). -/
  csumOk : Bool
  /-- STATUS.FVALID (R25). -/
  fvalid : Bool
  /-- STATUS.IOVF (R25). -/
  iovf : Bool
  /-- RESULT bits 15:0 (R26). -/
  result : Half
  /-- HDR_EXP bits 15:0 (R28). -/
  hdrExp : Half
  /-- BHDR bits 15:0 (R29). -/
  bhdr : Half
  /-- BADDR bits 7:0 (R30). -/
  baddr : Byte
  /-- BCMD bits 7:0 (R31). -/
  bcmd : Byte
  /-- IBUF's valid bytes; ILEN is the list's length (R32; DEDUCED, safe, log entry 8). -/
  ibuf : List Byte
  /-- OBUF's valid bytes; OLEN is the list's length (R33). -/
  obuf : List Byte
  /-- FHDR (R34). -/
  fhdr : Half
  /-- FADDR (R34). -/
  faddr : Byte
  /-- FCMD (R34). -/
  fcmd : Byte
  /-- FSUM (R34). -/
  fsum : Byte
  /-- FPAY's valid bytes; FLEN is the list's length (R34, R39). -/
  fpay : List Byte
  /-- LCOUNT bits 6:0 (R35). -/
  lcount : BitVec 7
  /-- LAYOUT[0..63] (R36). -/
  layout : Vector Word 64
  /-- RVAL[0..63] (R37). -/
  rval : Vector Word 64
  /-- RPRES, bit i for field i: RPRES_LO is bits 31:0, RPRES_HI bits 63:32 (R37). -/
  rpres : BitVec 64
  /-- RIMG[0 ..< BUF_SIZE] (R37). -/
  rimg : Memory
  /-- What the host and the platform do next, oldest first (log entry 1). -/
  pending : List HostEvent
  /-- The data of the bus reads answered so far, oldest first (log entry 2). -/
  answers : List Word
  deriving DecidableEq, Repr

/-- The state right after reset, every field at the value R190 gives; nothing is pending and no read is answered
(DESIGN CHOICE, safe, log entry 21). -/
def State.reset : State where
  vc := false
  vh := false
  err := .ok
  hdrOk := false
  csumOk := false
  fvalid := false
  iovf := false
  result := 0
  hdrExp := 0x57AB
  bhdr := 0x57AB
  baddr := 0
  bcmd := 0
  ibuf := []
  obuf := []
  fhdr := 0
  faddr := 0
  fcmd := 0
  fsum := 0
  fpay := []
  lcount := 0
  layout := Vector.replicate 64 0
  rval := Vector.replicate 64 0
  rpres := 0
  rimg := []
  pending := []
  answers := []

end Sys2Proof.Machine
end

