-- ==== Sys2Proof/Machine/Ops.lean ====
section
/-! DEFINITION. The named operations: byte sequences (00_scope.md R10), the checksum (40_frame_codec.md R110), packing
and unpacking integers (41_field_codec.md R142), the record image as canonical byte storage, the writes a command can
make to the state, and raising an error (60_exceptions.md R172), which is all the block has of taking an exception.
There is no return from an exception (R178). -/

namespace Sys2Proof.Machine

open Sys2Proof

/-! ## Byte sequences (R10) -/

/-- `B[i]`. R10 gives it for `i < len(B)` only; every use stands under a check of the length, so the 0 past the end is
never part of a result (DEDUCED, safe, log entry 18). -/
def byteAt (B : List Byte) (i : Nat) : Byte := B.getD i 0

/-- `B[i ..< j]`, empty when `j ≤ i` (R10). -/
def slice (B : List Byte) (i j : Nat) : List Byte := (B.drop i).take (j - i)

/-- `sum(B)`, the integer sum of the bytes (R11). -/
def byteSum (B : List Byte) : Nat := (B.map BitVec.toNat).sum

/-- `checksum8`: the modulo-256 sum of the bytes (R110). -/
def checksum8 (B : List Byte) : Byte := BitVec.ofNat 8 (byteSum B)

/-! ## Integers as bytes (R142) -/

/-- Little-endian unpacking: the first byte is the least significant. -/
def unpackLE : List Byte → Nat
  | [] => 0
  | b :: bs => b.toNat + 256 * unpackLE bs

/-- `unpack(b, o)`. -/
def unpack (o : ByteOrder) (b : List Byte) : Nat :=
  match o with
  | .le => unpackLE b
  | .be => unpackLE b.reverse

/-- Little-endian packing of the low `s` bytes of `u`. -/
def packLE : Nat → Nat → List Byte
  | 0, _ => []
  | s + 1, u => BitVec.ofNat 8 u :: packLE s (u / 256)

/-- `pack(u, s, o)`. -/
def pack (o : ByteOrder) (s u : Nat) : List Byte :=
  match o with
  | .le => packLE s u
  | .be => (packLE s u).reverse

/-- `sext_32(u, w)` for a signed field and `zext_32(u, w)` for an unsigned one (R11), of the low `w` bits of `u`. -/
def extend (signed : Bool) (w u : Nat) : Word :=
  if signed then (BitVec.ofNat w u).signExtend 32 else (BitVec.ofNat w u).setWidth 32

/-! ## Canonical byte storage: RIMG (R37, R64) -/

/-- The byte at an index; one that is not listed reads 0 (R190). -/
def Memory.read : Memory → Nat → Byte
  | [], _ => 0
  | (k, b) :: rest, i => if k = i then b else Memory.read rest i

/-- Puts a byte in front of cells whose indexes are larger, keeping the form: a byte that is 0 is not listed. -/
def Memory.cons (i : Nat) (b : Byte) (m : Memory) : Memory := if b = 0 then m else (i, b) :: m

/-- Writes one byte, keeping the canonical form. -/
def Memory.write : Memory → Nat → Byte → Memory
  | [], i, b => Memory.cons i b []
  | (k, c) :: rest, i, b =>
    if i < k then Memory.cons i b ((k, c) :: rest)
    else if i = k then Memory.cons i b rest
    else (k, c) :: Memory.write rest i b

/-- The bytes `bs` at the indexes from `i` up, and 0 everywhere else. -/
def Memory.ofBytes : Nat → List Byte → Memory
  | _, [] => []
  | i, b :: bs => Memory.cons i b (Memory.ofBytes (i + 1) bs)

/-- `n` bytes from index `off` up. -/
def Memory.readBytes (m : Memory) (off n : Nat) : List Byte := (List.range n).map fun k => m.read (off + k)

/-- The form from a lower bound on the indexes: strictly rising, no byte that is 0. -/
def Memory.wfFrom : Nat → Memory → Bool
  | _, [] => true
  | lo, (k, b) :: rest => decide (lo ≤ k) && (b != 0) && Memory.wfFrom (k + 1) rest

/-- The canonical form. -/
def Memory.wf (m : Memory) : Bool := Memory.wfFrom 0 m

/-- Every listed index is below `n`. -/
def Memory.below (n : Nat) (m : Memory) : Bool := m.all fun c => decide (c.1 < n)

/-! ## What a command writes -/

/-- A frame as FPARSE finds it (R120). -/
structure Frame where
  hdr0 : Byte
  hdr1 : Byte
  addr : Byte
  cmd : Byte
  len : Byte
  sum : Byte
  payload : List Byte
  deriving DecidableEq, Repr

/-- The result channel, which every command overwrites: STATUS.ERR, HDR_OK, CSUM_OK and RESULT (R25, R173). RESULT
holds bits 15:0 of the number (R26; DESIGN CHOICE, safe, log entry 13). -/
def State.setChannel (e : ErrCode) (hdrOk csumOk : Bool) (info : Nat) (s : State) : State :=
  { s with err := e, hdrOk := hdrOk, csumOk := csumOk, result := BitVec.ofNat 16 info }

/-- `OBUF[0 ..< len(bs)] <- bs ; OLEN <- len(bs)` (R33). -/
def State.setOutput (bs : List Byte) (s : State) : State := { s with obuf := bs }

/-- The frame registers hold the frame and FVALID is 1 (R34, R123). FLEN is the payload's length (R39). -/
def State.setFrame (f : Frame) (s : State) : State :=
  { s with fhdr := f.hdr0 ++ f.hdr1, faddr := f.addr, fcmd := f.cmd, fsum := f.sum, fpay := f.payload, fvalid := true }

/-- Every frame register is 0, FPAY is empty and FVALID is 0 (R34, R123 on raise). -/
def State.clearFrame (s : State) : State :=
  { s with fhdr := 0, faddr := 0, fcmd := 0, fsum := 0, fpay := [], fvalid := false }

/-- Replaces the whole record (R37). -/
def State.setRecord (rval : Vector Word 64) (rimg : Memory) (rpres : BitVec 64) (s : State) : State :=
  { s with rval := rval, rimg := rimg, rpres := rpres }

/-- `RVAL <- 0 ; RIMG <- 0 ; RPRES <- 0` (R148 on raise). -/
def State.clearRecord (s : State) : State := s.setRecord (Vector.replicate 64 0) [] 0

/-- IBUF's bytes, with ILEN their count, and STATUS.IOVF (R67, R68). -/
def State.setInput (bs : List Byte) (iovf : Bool) (s : State) : State := { s with ibuf := bs, iovf := iovf }

/-- A command's successful end: `STATUS.ERR <- OK`, HDR_OK, CSUM_OK and RESULT, on the state with its other writes. -/
def succeed (hdrOk csumOk : Bool) (info : Nat) (s : State) : Host.Outcome State Fault Refusal :=
  .next (s.setChannel .ok hdrOk csumOk info)

/-- `raise E(info)`: ERR and RESULT, and the command's HDR_OK and CSUM_OK writes, on the state with the writes of the
command's "on raise" clause; nothing else, and an ordinary next state (R172). -/
def raise (e : ErrCode) (hdrOk csumOk : Bool) (info : Nat) (s : State) : Host.Outcome State Fault Refusal :=
  .next (s.setChannel e hdrOk csumOk info)

end Sys2Proof.Machine
end

