-- ==== Sys2Proof/Machine/Operands.lean ====
section
/-! DEFINITION. The operand forms: the implicit register operands (30_encoding.md R93), a field's format and its
descriptor (30_encoding.md R88-R92), layouts, offsets and the layout check (41_field_codec.md R140, R141), and the
record view of a field (10_state.md R38). -/

namespace Sys2Proof.Machine

open Sys2Proof

/-! ## Register operands (R93) -/

/-- A 16-bit header register's byte for frame index 0: bits 15:8 (R28, R29). -/
def headerHi (h : Half) : Byte := h.extractLsb' 8 8

/-- A 16-bit header register's byte for frame index 1: bits 7:0 (R28, R29). -/
def headerLo (h : Half) : Byte := h.extractLsb' 0 8

/-! ## Field formats (R88, R140) -/

/-- A field's element type. -/
inductive Kind where
  | byte
  | int16
  | int32
  | block (n : Nat)
  deriving DecidableEq, Repr

/-- A field's declared byte order. -/
inductive Order where
  | be
  | le
  | native
  deriving DecidableEq, Repr

/-- One field of a layout; `ν` is the type of names (DESIGN CHOICE, safe, log entry 17). `signed` is false for a
block, which `layoutAdmitted` checks. -/
structure LayoutField (ν : Type) where
  name : ν
  kind : Kind
  order : Order
  signed : Bool
  deriving DecidableEq, Repr

/-- A layout: an ordered list of fields (R140). -/
abbrev Layout (ν : Type) := List (LayoutField ν)

/-- `size(kind)` in bytes (R90, R140). -/
def Kind.size : Kind → Nat
  | .byte => 1
  | .int16 => 2
  | .int32 => 4
  | .block n => n

/-- Is the kind a raw byte block? -/
def Kind.isBlock : Kind → Bool
  | .block _ => true
  | .byte | .int16 | .int32 => false

/-- A field's size in bytes. -/
def LayoutField.size {ν : Type} (f : LayoutField ν) : Nat := f.kind.size

/-- An integer field's width in bits, `w(d) = 8 * size(d)` (R90). -/
def LayoutField.width {ν : Type} (f : LayoutField ν) : Nat := 8 * f.kind.size

/-- `eff(order)`: NATIVE is the block's NATIVE_ORDER (R143). -/
def Order.eff (native : ByteOrder) : Order → ByteOrder
  | .be => .be
  | .le => .le
  | .native => native

/-- `off(Lay, i)`, the sum of the sizes of the fields before field `i`; no padding (R140). -/
def fieldOffset {ν : Type} (lay : Layout ν) (i : Nat) : Nat := ((lay.take i).map LayoutField.size).sum

/-- S, the sum of the field sizes: the end of the last field (R140, R144). -/
def totalSize {ν : Type} (lay : Layout ν) : Nat := (lay.map LayoutField.size).sum

/-- Are the layout's names pairwise distinct (R140)? -/
def namesDistinct {ν : Type} [DecidableEq ν] (lay : Layout ν) : Bool := decide (lay.map LayoutField.name).Nodup

/-- Is the field one that R140 has: not a signed block? -/
def LayoutField.admitted {ν : Type} (f : LayoutField ν) : Bool := !(f.kind.isBlock && f.signed)

/-- Is the layout in the signature of the level-1 functions (R13, R140): distinct names, and no signed block? -/
def layoutAdmitted {ν : Type} [DecidableEq ν] (lay : Layout ν) : Bool :=
  namesDistinct lay && lay.all LayoutField.admitted

/-- Level-1 `layout_size` (R144). None: a layout outside the signature is refused (R13, R140; DEDUCED, safe, log entry
10). -/
def layoutSize {ν : Type} [DecidableEq ν] (lay : Layout ν) : Option Nat :=
  if layoutAdmitted lay then some (totalSize lay) else none

/-! ## Descriptors (R88, R89) -/

/-- KIND, bits 1:0, with N, bits 31:16, for a block. -/
def descKind (d : Word) : Kind :=
  match (d.extractLsb' 0 2).toNat with
  | 0 => .byte
  | 1 => .int16
  | 2 => .int32
  | _ => .block (d.extractLsb' 16 16).toNat

/-- ORDER, bits 3:2; 3 is reserved and has no order. -/
def descOrder (d : Word) : Option Order :=
  match (d.extractLsb' 2 2).toNat with
  | 0 => some .be
  | 1 => some .le
  | 2 => some .native
  | _ => none

/-- SIGNED, bit 4. -/
def descSigned (d : Word) : Bool := d.getLsbD 4

/-- `desc_valid(d)` (R89). -/
def descValid (d : Word) : Bool :=
  (d.extractLsb' 2 2 != 3) && (d.extractLsb' 5 11 == 0) &&
    (if d.extractLsb' 0 2 == 3 then d.getLsbD 4 == false else d.extractLsb' 16 16 == 0)

/-- The level-1 field a valid descriptor stands for, under its index as its name (R140); none for an invalid one. -/
def descField (i : Nat) (d : Word) : Option (LayoutField Nat) :=
  if descValid d then
    match descOrder d with
    | some o => some { name := i, kind := descKind d, order := o, signed := descSigned d }
    | none => none
  else none

/-! ## The layout check (R141) -/

/-- The loop of `layout_check` from field `i` at offset `off`: the fields of the descriptors, or the index of the first
bad one (an invalid descriptor, or a cumulative size over BUF_SIZE). -/
def layoutScan : Nat → Nat → List Word → Except Nat (Layout Nat)
  | _, _, [] => .ok []
  | i, off, d :: ds =>
    match descField i d with
    | none => .error i
    | some f =>
      if Config.inBuf (off + f.size) then
        match layoutScan (i + 1) (off + f.size) ds with
        | .ok fs => .ok (f :: fs)
        | .error e => .error e
      else .error i

/-- The entries of LAYOUT that are part of the layout, `LAYOUT[0 ..< LCOUNT]` (R36). -/
def State.descriptors (s : State) : List Word := s.layout.toList.take s.lcount.toNat

/-- `layout_check()`: the level-1 layout, whose `totalSize` is S, or the info of LAYOUT_INVALID. -/
def State.layoutCheck (s : State) : Except Nat (Layout Nat) :=
  if Config.maxFields < s.lcount.toNat then .error 0xFFFF else layoutScan 0 0 s.descriptors

/-! ## The record (R37, R38) -/

/-- RVAL[i]; there is none for `i` past 63 (DEDUCED, safe, log entry 18). -/
def State.rvalAt (s : State) (i : Nat) : Word := s.rval.getD i 0

/-- RPRES bit i (R150). -/
def State.present (s : State) (i : Nat) : Bool := s.rpres.getLsbD i

/-- A record value: an integer or a raw byte block (R146). -/
inductive Value where
  | int (v : Int)
  | bytes (b : List Byte)
  deriving DecidableEq, Repr

/-- The integer a 32-bit record word stands for: unsigned, or `to_signed(RVAL[i], 32)` (R148). -/
def wordValue (signed : Bool) (v : Word) : Int := if signed then v.toInt else v.toNat

/-- The record view of field `i` under a layout: defined only when the field is present (R38). -/
def State.recordView (s : State) (lay : Layout Nat) (i : Nat) : Option Value :=
  match lay[i]? with
  | none => none
  | some f =>
    if s.present i then
      match f.kind with
      | .block n => some (.bytes (s.rimg.readBytes (fieldOffset lay i) n))
      | .byte | .int16 | .int32 => some (.int (wordValue f.signed (s.rvalAt i)))
    else none

end Sys2Proof.Machine
end

