-- ==== Sys2Proof/Machine/FieldCodec.lean ====
section
/-! DEFINITION. The field codec unit: the level-1 functions `field_decode` and `field_encode` (41_field_codec.md R146,
R149), and the meanings of LSIZE, FDECODE and FENCODE (R145, R148, R151). `layout_size` is in Operands. -/

namespace Sys2Proof.Machine

open Sys2Proof

/-! ## Level 1 -/

/-- A record: a finite map from names to values, as an association list whose first entry for a name counts (R146;
DESIGN CHOICE, safe, log entry 16). -/
abbrev Record (ν : Type) := List (ν × Value)

/-- The value a record holds under a name. -/
def Record.get {ν : Type} [DecidableEq ν] (R : Record ν) (n : ν) : Option Value := R.lookup n

/-- The answer of a level-1 field-codec function: a value, an error with its info, or a refusal of an input outside the
function's signature (R13; DEDUCED, safe, log entry 10). -/
inductive Answer (α : Type) where
  | ok (a : α)
  | err (e : ErrCode) (info : Nat)
  | refused
  deriving DecidableEq, Repr

/-- `value(u, s, signed)`: two's complement for a signed field (R142). -/
def intValue (signed : Bool) (s u : Nat) : Int :=
  if signed && decide (2 ^ (8 * s - 1) ≤ u) then (u : Int) - 2 ^ (8 * s) else u

/-- Membership of `range(s, signed)` (R142). -/
def inRange (signed : Bool) (s : Nat) (v : Int) : Bool :=
  if signed then decide (-(2 ^ (8 * s - 1)) ≤ v) && decide (v < 2 ^ (8 * s - 1))
  else decide (0 ≤ v) && decide (v < 2 ^ (8 * s))

/-- The value of one field read from its own bytes (R146). -/
def fieldValue {ν : Type} (native : ByteOrder) (f : LayoutField ν) (b : List Byte) : Value :=
  if f.kind.isBlock then .bytes b else .int (intValue f.signed f.size (unpack (f.order.eff native) b))

/-- `field_decode` (R146), with NATIVE_ORDER as an argument (R8). -/
def fieldDecode {ν : Type} [DecidableEq ν] (native : ByteOrder) (lay : Layout ν) (B : List Byte) :
    Answer (Record ν) :=
  if layoutAdmitted lay then
    if B.length < totalSize lay then .err .bufferTooSmall (totalSize lay)
    else .ok (lay.mapIdx fun i f =>
      (f.name, fieldValue native f (slice B (fieldOffset lay i) (fieldOffset lay i + f.size))))
  else .refused

/-- Is the record's value for a field, where it has one, of the field's kind: an integer, or exactly N bytes (R149)? -/
def kindMatches {ν : Type} [DecidableEq ν] (R : Record ν) (f : LayoutField ν) : Bool :=
  match R.get f.name, f.kind with
  | some (.int _), .block _ => false
  | some (.bytes b), .block n => b.length == n
  | some (.bytes _), .byte | some (.bytes _), .int16 | some (.bytes _), .int32 => false
  | some (.int _), .byte | some (.int _), .int16 | some (.int _), .int32 => true
  | none, _ => true

/-- The error `field_encode` reports for one field, if any: MISSING_FIELD before VALUE_RANGE (R149). -/
def encodeFieldError {ν : Type} [DecidableEq ν] (R : Record ν) (f : LayoutField ν) : Option ErrCode :=
  match R.get f.name with
  | none => some .missingField
  | some (.bytes _) => none
  | some (.int v) => if inRange f.signed f.size v then none else some .valueRange

/-- The bytes of one value under its field's format (R149): `pack(v mod 2^(8s), s, eff(order))`, or the block itself. -/
def valueBytes {ν : Type} (native : ByteOrder) (f : LayoutField ν) : Value → List Byte
  | .bytes b => b
  | .int v => pack (f.order.eff native) f.size (v % 2 ^ (8 * f.size)).toNat

/-- The first field, in order and counted from `i`, that has an error, with the error. -/
def firstFieldError {ν : Type} (check : Nat → LayoutField ν → Option ErrCode) : Nat → Layout ν → Option (ErrCode × Nat)
  | _, [] => none
  | i, f :: fs =>
    match check i f with
    | some e => some (e, i)
    | none => firstFieldError check (i + 1) fs

/-- `field_encode` (R149), with NATIVE_ORDER as an argument (R8). -/
def fieldEncode {ν : Type} [DecidableEq ν] (native : ByteOrder) (R : Record ν) (lay : Layout ν) :
    Answer (List Byte) :=
  if layoutAdmitted lay && lay.all (kindMatches R) then
    match firstFieldError (fun _ => encodeFieldError R) 0 lay with
    | some (e, i) => .err e i
    | none => .ok (lay.flatMap fun f =>
      match R.get f.name with
      | some v => valueBytes native f v
      | none => [])
  else .refused

/-! ## Level 2 -/

/-- The level-2 record under a layout as a level-1 record: each present field's view under its index (R38, R140). -/
def State.recordOf (s : State) (lay : Layout Nat) : Record Nat :=
  (List.range lay.length).filterMap fun i => (s.recordView lay i).map fun v => (i, v)

/-- The bytes of IBUF that lie under field `i` (R148). -/
def State.fieldBytes (s : State) (lay : Layout Nat) (i : Nat) (f : LayoutField Nat) : List Byte :=
  slice s.ibuf (fieldOffset lay i) (fieldOffset lay i + f.size)

/-- What FDECODE writes to RVAL[i] for a field with the bytes `b`: the extended integer, and 0 for a block (R148). -/
def decodedWord (native : ByteOrder) (f : LayoutField Nat) (b : List Byte) : Word :=
  if f.kind.isBlock then 0 else extend f.signed f.width (unpack (f.order.eff native) b)

/-- RPRES with exactly the bits `0 ..< n` set, for `n ≤ 64` (R148). -/
def presentBelow (n : Nat) : BitVec 64 := BitVec.ofNat 64 (2 ^ n - 1)

/-- The record FDECODE writes on success, for a layout of total size S: each integer field's word, the first S bytes of
IBUF in RIMG and 0 past them, and the fields below LCOUNT present (R148). -/
def State.decodeRecord (native : ByteOrder) (lay : Layout Nat) (s : State) : State :=
  s.setRecord
    (Vector.ofFn fun i : Fin 64 =>
      match lay[i.val]? with
      | some f => decodedWord native f (s.fieldBytes lay i.val f)
      | none => 0)
    (Memory.ofBytes 0 (slice s.ibuf 0 (totalSize lay)))
    (presentBelow lay.length)

/-- The error FENCODE reports for field `i`, if any (R151). -/
def State.encodeError (s : State) (i : Nat) (f : LayoutField Nat) : Option ErrCode :=
  if !s.present i then some .missingField
  else if f.kind.isBlock then none
  else if s.rvalAt i = extend f.signed f.width (s.rvalAt i).toNat then none
  else some .valueRange

/-- The bytes FENCODE emits for field `i` (R151): its part of RIMG for a block, else the packed low bits of RVAL[i]. -/
def State.encodedField (native : ByteOrder) (lay : Layout Nat) (s : State) (i : Nat) (f : LayoutField Nat) : List Byte :=
  if f.kind.isBlock then s.rimg.readBytes (fieldOffset lay i) f.size
  else pack (f.order.eff native) f.size ((s.rvalAt i).toNat % 2 ^ f.width)

/-- LSIZE (R145). -/
def execLsize (s : State) : Host.Outcome State Fault Refusal :=
  match s.layoutCheck with
  | .error info => raise .layoutInvalid false false info s
  | .ok lay => succeed false false (totalSize lay) s

/-- FDECODE (R148): every error clears the whole record. -/
def execFdecode (s : State) : Host.Outcome State Fault Refusal :=
  match s.layoutCheck with
  | .error info => raise .layoutInvalid false false info s.clearRecord
  | .ok lay =>
    if s.ibuf.length < totalSize lay then raise .bufferTooSmall false false (totalSize lay) s.clearRecord
    else succeed false false (totalSize lay) (s.decodeRecord Config.nativeOrder lay)

/-- FENCODE (R151): every error empties OBUF; the record is not written. -/
def execFencode (s : State) : Host.Outcome State Fault Refusal :=
  match s.layoutCheck with
  | .error info => raise .layoutInvalid false false info (s.setOutput [])
  | .ok lay =>
    match firstFieldError s.encodeError 0 lay with
    | some (e, i) => raise e false false i (s.setOutput [])
    | none =>
      succeed false false (totalSize lay)
        (s.setOutput (lay.mapIdx (s.encodedField Config.nativeOrder lay)).flatten)

end Sys2Proof.Machine
end

