-- ==== Sys2Proof/Machine/FrameCodec.lean ====
section
/-! DEFINITION. The frame codec unit: the level-1 functions `frame_build`, `frame_probe` and `frame_parse`
(40_frame_codec.md R112, R116, R119, R120), and the meanings of FBUILD, FPROBE and FPARSE over them. -/

namespace Sys2Proof.Machine

open Sys2Proof

/-- `frame_build` (R112). None: a payload over 255 bytes is outside its domain and refused (R13; DEDUCED, safe, log
entry 10). -/
def frameBuild (h0 h1 a c : Byte) (P : List Byte) : Option (List Byte) :=
  if P.length ≤ Config.maxPayload then
    let body := [h0, h1, a, c, BitVec.ofNat 8 P.length] ++ P
    some (body ++ [checksum8 body])
  else none

/-- `frame_probe` (R116): 0 where the length is not yet determined. -/
def frameProbe (B : List Byte) : Nat :=
  if B.length < Config.framePrefix then 0 else Config.framePrefix + (byteAt B 4).toNat + 1

/-- Is `F` a complete frame: the prefix, and exactly the bytes its length byte tells (R84, R116)? -/
def frameComplete (F : List Byte) : Bool := decide (Config.framePrefix ≤ F.length) && (F.length == frameProbe F)

/-- `csum_ok(F)`, the checksum verifier of a complete frame (R111). None: R111 gives it for a complete frame only, and
the model refuses every other list (R13; DEDUCED, safe, log entry 10). -/
def csumOk (F : List Byte) : Option Bool :=
  if frameComplete F then some (checksum8 (slice F 0 (F.length - 1)) == byteAt F (F.length - 1)) else none

/-- `hdr_match(B, E)` (R119). -/
def hdrMatch (B : List Byte) (E : Byte × Byte) : Bool := byteAt B 0 == E.1 && byteAt B 1 == E.2

/-- `ParseOut.res` (R120): a frame and its total length, or the error. -/
inductive ParseResult where
  | ok (f : Frame) (L : Nat)
  | err (e : ErrCode)
  deriving DecidableEq, Repr

/-- `ParseOut` (R120). -/
structure ParseOut where
  res : ParseResult
  need : Nat
  hdrOk : Bool
  csumOk : Bool
  deriving DecidableEq, Repr

/-- `frame_parse` (R120), its checks in the order of R121. -/
def frameParse (vc vh : Bool) (E : Byte × Byte) (B : List Byte) : ParseOut :=
  let need := frameProbe B
  if B.length < Config.framePrefix then
    { res := .err .insufficientData, need := need, hdrOk := false, csumOk := false }
  else
    let h := hdrMatch B E
    let n := (byteAt B 4).toNat
    let L := Config.framePrefix + n + 1
    if vh && !h then
      { res := .err .headerMismatch, need := need, hdrOk := false, csumOk := false }
    else if B.length < L then
      { res := .err .insufficientData, need := need, hdrOk := h, csumOk := false }
    else
      let recv := byteAt B (L - 1)
      let c := checksum8 (slice B 0 (L - 1)) == recv
      if vc && !c then
        { res := .err .checksumMismatch, need := need, hdrOk := h, csumOk := false }
      else
        let f : Frame :=
          { hdr0 := byteAt B 0, hdr1 := byteAt B 1, addr := byteAt B 2, cmd := byteAt B 3, len := byteAt B 4,
            sum := recv, payload := slice B Config.framePrefix (Config.framePrefix + n) }
        { res := .ok f L, need := need, hdrOk := h, csumOk := c }

/-- FBUILD (R113): the frame of BHDR, BADDR, BCMD and the payload IBUF goes to OBUF. A payload `frame_build` refuses
(ILEN > 255) raises PAYLOAD_TOO_LONG(ILEN) and empties OBUF. -/
def execFbuild (s : State) : Host.Outcome State Fault Refusal :=
  match frameBuild (headerHi s.bhdr) (headerLo s.bhdr) s.baddr s.bcmd s.ibuf with
  | some F => succeed false false F.length (s.setOutput F)
  | none => raise .payloadTooLong false false s.ibuf.length (s.setOutput [])

/-- FPROBE (R118): RESULT is the probe of IBUF; nothing but RESULT and STATUS is written (R117). -/
def execFprobe (s : State) : Host.Outcome State Fault Refusal :=
  succeed false false (frameProbe s.ibuf) s

/-- FPARSE (R123): the frame at the start of IBUF goes to the frame registers; on an error they are all 0. RESULT is
the probe of IBUF either way. -/
def execFparse (s : State) : Host.Outcome State Fault Refusal :=
  let r := frameParse s.vc s.vh (headerHi s.hdrExp, headerLo s.hdrExp) s.ibuf
  match r.res with
  | .ok f _ => succeed r.hdrOk r.csumOk r.need (s.setFrame f)
  | .err e => raise e r.hdrOk r.csumOk r.need s.clearFrame

end Sys2Proof.Machine
end

