-- ==== Sys2Proof/Machine/Illegal.lean ====
section
/-! DEFINITION. ILLEGAL, the behaviour of a CMD write whose word is reserved (60_exceptions.md R175), one meaning for
each of its four rows of the opcode table. -/

namespace Sys2Proof.Machine

open Sys2Proof

/-- `raise ILLEGAL_OP(v[15:0])`: ERR = 9, HDR_OK and CSUM_OK 0, RESULT the word's bits 15:0; no other state changes. -/
def illegalOp (v : Word) (s : State) : Host.Outcome State Fault Refusal :=
  raise .illegalOp false false (v.extractLsb' 0 16).toNat s

/-- CMD word 0 (R175). -/
def execIllegalZero (s : State) : Host.Outcome State Fault Refusal := illegalOp 0 s

/-- CMD word 7 (R175). -/
def execIllegalSeven (s : State) : Host.Outcome State Fault Refusal := illegalOp 7 s

/-- CMD words 8 to 15 (R175). -/
def execIllegalHigh (low : BitVec 3) (s : State) : Host.Outcome State Fault Refusal :=
  illegalOp ((1 : BitVec 29) ++ low) s

/-- CMD words with bits 31:4 not 0 (R175). -/
def execIllegalMbz (v : Word) (s : State) : Host.Outcome State Fault Refusal := illegalOp v s

end Sys2Proof.Machine
end

