-- ==== Sys2Proof/Machine/Input.lean ====
section
/-! DEFINITION. The input family: IPUSH and ICLR (20_memory.md R67, R68). They are bus writes, not commands: they write
no part of the result channel (10_state.md R25). -/

namespace Sys2Proof.Machine

open Sys2Proof

/-- IPUSH: appends the byte to IBUF, or drops it and sets STATUS.IOVF where IBUF is full (R67). -/
def execIpush (b : Byte) (s : State) : Host.Outcome State Fault Refusal :=
  if Config.inBuf (s.ibuf.length + 1) then .next (s.setInput (s.ibuf ++ [b]) s.iovf)
  else .next (s.setInput s.ibuf true)

/-- ICLR: empties IBUF and clears STATUS.IOVF (R68). -/
def execIclr (s : State) : Host.Outcome State Fault Refusal := .next (s.setInput [] false)

end Sys2Proof.Machine
end

