-- ==== Sys2Proof/Machine/Dispatch.lean ====
section
/-! DEFINITION. One arm for each constructor of Instr, each a direct call of its meaning. -/

namespace Sys2Proof.Machine

open Sys2Proof

def exec (i : Instr) (s : State) : Host.Outcome State Fault Refusal :=
  match i with
  | .fbuild => Sys2Proof.Machine.execFbuild s
  | .fprobe => Sys2Proof.Machine.execFprobe s
  | .fparse => Sys2Proof.Machine.execFparse s
  | .lsize => Sys2Proof.Machine.execLsize s
  | .fdecode => Sys2Proof.Machine.execFdecode s
  | .fencode => Sys2Proof.Machine.execFencode s
  | .illegalZero => Sys2Proof.Machine.execIllegalZero s
  | .illegalSeven => Sys2Proof.Machine.execIllegalSeven s
  | .illegalHigh low => Sys2Proof.Machine.execIllegalHigh low s
  | .illegalMbz v => Sys2Proof.Machine.execIllegalMbz v s
  | .ipush b => Sys2Proof.Machine.execIpush b s
  | .iclr => Sys2Proof.Machine.execIclr s

end Sys2Proof.Machine
end

