-- ==== Sys2Proof/Machine/Flags.lean ====
section
/-! DEFINITION. The status flags and the status code (10_state.md R25, R40; 60_exceptions.md R170). The block has no
arithmetic condition codes; each command's rule gives the values of its flags. -/

namespace Sys2Proof.Machine

open Sys2Proof

/-- The numeric code of STATUS.ERR (R170). -/
def ErrCode.code : ErrCode → BitVec 4
  | .ok => 0
  | .insufficientData => 1
  | .headerMismatch => 2
  | .checksumMismatch => 3
  | .bufferTooSmall => 4
  | .missingField => 5
  | .valueRange => 6
  | .layoutInvalid => 7
  | .payloadTooLong => 8
  | .illegalOp => 9

/-- What the host does about an error, for the host's use only: no rule of the block reads it (R171). -/
inductive Recovery where
  | moreInput
  | discardAndRetry
  | protocolMismatch
  | programmingError
  deriving DecidableEq, Repr

/-- The recovery class of each error; OK has none (R171). -/
def ErrCode.recovery : ErrCode → Option Recovery
  | .ok => none
  | .insufficientData => some .moreInput
  | .headerMismatch | .checksumMismatch => some .discardAndRetry
  | .bufferTooSmall => some .protocolMismatch
  | .missingField | .valueRange | .layoutInvalid | .payloadTooLong | .illegalOp => some .programmingError

/-- STATUS as the host reads it: ERR in bits 3:0, HDR_OK bit 4, CSUM_OK bit 5, FVALID bit 8, IOVF bit 9, the reserved
bits 0 (R25). -/
def State.statusWord (s : State) : Word :=
  (0 : BitVec 22) ++ BitVec.ofBool s.iovf ++ BitVec.ofBool s.fvalid ++ (0 : BitVec 2) ++ BitVec.ofBool s.csumOk ++
    BitVec.ofBool s.hdrOk ++ s.err.code

/-- CTRL as the host reads it: VC bit 0, VH bit 1, the reserved bits 0 (R23). -/
def State.ctrlWord (s : State) : Word := (0 : BitVec 30) ++ BitVec.ofBool s.vh ++ BitVec.ofBool s.vc

end Sys2Proof.Machine
end

