-- ==== Sys2Proof/Machine/Bus.lean ====
section
/-! DEFINITION. The host bus: what a read of each location answers and what a write to it stores (20_memory.md R61-R68),
and what the block does with one host event. -/

namespace Sys2Proof.Machine

open Sys2Proof

/-- A byte of a window as the host reads it, in bits 7:0: the byte where the index is below the valid count, else 0
(R64). -/
def windowWord (B : List Byte) (i : Nat) : Word := if i < B.length then (byteAt B i).setWidth 32 else 0

/-- INFO: BUF_SIZE in bits 15:0, MAX_FIELDS in 23:16, NATIVE_LE bit 24, VERSION 1 in 31:28, the reserved bits 0 (R27). -/
def infoWord : Word :=
  (1 : BitVec 4) ++ (0 : BitVec 3) ++ BitVec.ofBool (Config.nativeOrder == .le) ++ BitVec.ofNat 8 Config.maxFields ++
    BitVec.ofNat 16 Config.bufSize

/-- What a read of a location returns; a write-only register and an unmapped address read 0 (R62-R64). -/
def State.readLoc (s : State) : Loc → Word
  | .ctrl => s.ctrlWord
  | .cmd => 0
  | .status => s.statusWord
  | .result => s.result.setWidth 32
  | .hdrExp => s.hdrExp.setWidth 32
  | .bhdr => s.bhdr.setWidth 32
  | .baddr => s.baddr.setWidth 32
  | .bcmd => s.bcmd.setWidth 32
  | .ilen => BitVec.ofNat 32 s.ibuf.length
  | .ipush => 0
  | .iclr => 0
  | .olen => BitVec.ofNat 32 s.obuf.length
  | .fhdr => s.fhdr.setWidth 32
  | .faddr => s.faddr.setWidth 32
  | .fcmd => s.fcmd.setWidth 32
  | .flen => BitVec.ofNat 32 s.fpay.length
  | .fsum => s.fsum.setWidth 32
  | .lcount => s.lcount.setWidth 32
  | .rpresLo => s.rpres.extractLsb' 0 32
  | .rpresHi => s.rpres.extractLsb' 32 32
  | .info => infoWord
  | .layout i => s.layout.get i
  | .rval i => s.rval.get i
  | .fpay i => windowWord s.fpay i
  | .obuf i => windowWord s.obuf i
  | .rimg i => if Config.inBuf (i + 1) then (s.rimg.read i).setWidth 32 else 0
  | .ibuf i => windowWord s.ibuf i
  | .unmapped => 0

/-- What a write that starts no instruction stores: the defined fields of a read/write register (R65), a byte of RIMG
(R64), with RPRES cleared by a write to LCOUNT or LAYOUT (R196); a write to a read-only register, a read-only window or
an unmapped address changes nothing (R63). CMD, IPUSH and ICLR store nothing here: a write to one of them is an
instruction. -/
def State.writeLoc (s : State) (v : Word) : Loc → State
  | .ctrl => { s with vc := v.getLsbD 0, vh := v.getLsbD 1 }
  | .hdrExp => { s with hdrExp := v.extractLsb' 0 16 }
  | .bhdr => { s with bhdr := v.extractLsb' 0 16 }
  | .baddr => { s with baddr := v.extractLsb' 0 8 }
  | .bcmd => { s with bcmd := v.extractLsb' 0 8 }
  | .lcount => { s with lcount := v.extractLsb' 0 7, rpres := 0 }
  | .rpresLo => { s with rpres := s.rpres.extractLsb' 32 32 ++ v }
  | .rpresHi => { s with rpres := v ++ s.rpres.extractLsb' 0 32 }
  | .layout i => { s with layout := s.layout.set i v, rpres := 0 }
  | .rval i => { s with rval := s.rval.set i v }
  | .rimg i => if Config.inBuf (i + 1) then { s with rimg := s.rimg.write i (v.extractLsb' 0 8) } else s
  | .cmd | .ipush | .iclr => s
  | .status | .result | .ilen | .olen | .info => s
  | .fhdr | .faddr | .fcmd | .flen | .fsum => s
  | .fpay _ | .obuf _ | .ibuf _ => s
  | .unmapped => s

/-- `MemRead(a, 4)` (R61). -/
def State.busRead (s : State) (a : Addr) : Word := s.readLoc (locate a)

/-- `MemWrite(a, 4, v)`: runs the instruction it starts, atomically (R66), or stores. -/
def busWrite (a : Addr) (v : Word) (s : State) : Host.Outcome State Fault Refusal :=
  match decodeWrite a v with
  | .ok i => exec i s
  | .error (.notACommand l) => .next (s.writeLoc v l)

/-- The reset input: every piece of the block's state takes its reset value (R190); the host's side of the bus stays as
it is (DESIGN CHOICE, safe, log entry 4). -/
def State.resetBlock (s : State) : State := { State.reset with pending := s.pending, answers := s.answers }

/-- What one host event does. A read changes nothing of the block (R66). -/
def accept (e : HostEvent) (s : State) : Host.Outcome State Fault Refusal :=
  match e with
  | .read a => .next { s with answers := s.answers ++ [s.busRead a] }
  | .write a v => busWrite a v s
  | .reset => .next s.resetBlock

/-- The event an opcode-table row's word stands for (log entry 12). -/
def tableEvent (nbits w : Nat) : HostEvent := .write (tableWrite nbits w).addr (tableWrite nbits w).data

/-- The block acts on the host's oldest pending event; with none pending it stays as it is (DESIGN CHOICE, safe, log entry 3). -/
def acceptNext (s : State) : Host.Outcome State Fault Refusal :=
  match s.pending with
  | [] => .next s
  | e :: rest => accept e { s with pending := rest }

end Sys2Proof.Machine
end

