-- ==== Sys2Proof/Machine/Step.lean ====
section
/-! DEFINITION. One step of the machine: the block takes the host's oldest pending event, in the order of the host's
transfers (10_state.md R21; 20_memory.md R71). -/

namespace Sys2Proof.Machine

open Sys2Proof

/-- One step. -/
def step (s : State) : Host.Outcome State Fault Refusal := acceptNext s

/-- `s` with the bus write an opcode-table row stands for put first among the host's pending events. -/
def State.withFetchWord (s : State) (nbits w : Nat) : State :=
  { s with pending := tableEvent nbits w :: s.pending }

end Sys2Proof.Machine
end

