-- ==== Sys2Proof/Machine/HostProgram.lean ====
section
/-! DEFINITION. The host-program notation (30_encoding.md R94, R95): lines that stand for bus transfers, and the
pseudo-operations' expansions. A program's events are what a host puts into `pending` (log entry 1). -/

namespace Sys2Proof.Machine

open Sys2Proof

/-- `addr(reg)`, the word address of a location (R62, R94); none for an index outside its array and for unmapped. -/
def addrOf : Loc → Option Addr
  | .ctrl => some 0x0000
  | .cmd => some 0x0004
  | .status => some 0x0008
  | .result => some 0x000C
  | .hdrExp => some 0x0010
  | .bhdr => some 0x0014
  | .baddr => some 0x0018
  | .bcmd => some 0x001C
  | .ilen => some 0x0020
  | .ipush => some 0x0024
  | .iclr => some 0x0028
  | .olen => some 0x002C
  | .fhdr => some 0x0030
  | .faddr => some 0x0034
  | .fcmd => some 0x0038
  | .flen => some 0x003C
  | .fsum => some 0x0040
  | .lcount => some 0x0044
  | .rpresLo => some 0x0048
  | .rpresHi => some 0x004C
  | .info => some 0x0050
  | .layout i => some (BitVec.ofNat 16 (0x0100 + 4 * i.val))
  | .rval i => some (BitVec.ofNat 16 (0x0200 + 4 * i.val))
  | .fpay i => if i < 256 then some (BitVec.ofNat 16 (0x0400 + 4 * i)) else none
  | .obuf i => if i < 1024 then some (BitVec.ofNat 16 (0x1000 + 4 * i)) else none
  | .rimg i => if i < 1024 then some (BitVec.ofNat 16 (0x2000 + 4 * i)) else none
  | .ibuf i => if i < 1024 then some (BitVec.ofNat 16 (0x3000 + 4 * i)) else none
  | .unmapped => none

/-- One line of a host program: a transfer (R94) or a pseudo-operation (R95). -/
inductive Line where
  /-- `WR <reg>, <v>` -/
  | wr (l : Loc) (v : Word)
  /-- `RD <reg> ; = <v>` -/
  | rd (l : Loc) (expected : Word)
  /-- `CMD <mnemonic>`; that it can name every instruction is the model's choice (DESIGN CHOICE, safe, log entry 23) -/
  | cmd (i : Instr)
  /-- `PUSH b0 b1 ... bk` -/
  | push (bs : List Byte)
  /-- `CLR` -/
  | clr
  /-- `RDOBUF n ; = b0 ... b(n-1)` -/
  | rdobuf (expected : List Byte)
  deriving DecidableEq, Repr

/-- The CMD word of an instruction (R82). IPUSH and ICLR are bus writes of their own and have none (R67, R68). -/
def cmdWord (i : Instr) : Option Word :=
  match i with
  | .fbuild | .fprobe | .fparse | .lsize | .fdecode | .fencode => some (encode i).data
  | .illegalZero | .illegalSeven | .illegalHigh _ | .illegalMbz _ => some (encode i).data
  | .ipush _ | .iclr => none

/-- `WR`: a write to the location's address; a location without one gives no transfer (DESIGN CHOICE, safe, log
entry 23). -/
def wrEvents (l : Loc) (v : Word) : List HostEvent := (addrOf l).toList.map fun a => .write a v

/-- `RD`: a read of the location's address; a location without one gives no transfer (DESIGN CHOICE, safe, log
entry 23). -/
def rdEvents (l : Loc) : List HostEvent := (addrOf l).toList.map fun a => .read a

/-- The transfers a line stands for, in order (R94, R95). A CMD line of IPUSH or ICLR, to which R82 gives no CMD word,
stands for none (DESIGN CHOICE, safe, log entry 23). -/
def Line.events : Line → List HostEvent
  | .wr l v => wrEvents l v
  | .rd l _ => rdEvents l
  | .cmd i => (cmdWord i).toList.flatMap fun w => wrEvents .cmd w
  | .push bs => bs.flatMap fun b => wrEvents .ipush (b.setWidth 32)
  | .clr => wrEvents .iclr 0
  | .rdobuf bs => (List.range bs.length).flatMap fun k => rdEvents (.obuf k)

/-- The read values a line states. -/
def Line.expected : Line → List Word
  | .rd _ v => [v]
  | .rdobuf bs => bs.map fun b => b.setWidth 32
  | .wr _ _ | .cmd _ | .push _ | .clr => []

/-- A program's transfers, in order. -/
def programEvents (p : List Line) : List HostEvent := p.flatMap Line.events

/-- The read values a program states, in order. -/
def programExpected (p : List Line) : List Word := p.flatMap Line.expected

end Sys2Proof.Machine
end

