-- ==== Sys2Proof/Safety.lean ====
section
/-! DEFINITION. The terms claims are stated in: the access and the defined bits of each location (20_memory.md R62-R65),
which state belongs to which unit (41_field_codec.md R155), equal records (10_state.md R38), and what the block's
states keep to: the size limits of 10_state.md R39, the canonical form of the record image, and that frame registers
without FVALID are all 0 (R34, 70_reset_and_hazards.md R195). -/

namespace Sys2Proof

/-- The access column of the address map (R62). -/
inductive Access where
  | readWrite
  | readOnly
  | writeOnly
  | unmapped
  deriving DecidableEq, Repr

/-- Each location's access (R62). -/
def Loc.access : Loc → Access
  | .ctrl | .hdrExp | .bhdr | .baddr | .bcmd | .lcount | .rpresLo | .rpresHi => .readWrite
  | .layout _ | .rval _ | .rimg _ => .readWrite
  | .cmd | .ipush | .iclr => .writeOnly
  | .status | .result | .ilen | .olen | .info => .readOnly
  | .fhdr | .faddr | .fcmd | .flen | .fsum => .readOnly
  | .fpay _ | .obuf _ | .ibuf _ => .readOnly
  | .unmapped => .unmapped

/-- The bits of each location that are not reserved and can be read (10_state.md R23-R37; R63, R64). -/
def Loc.definedBits : Loc → Word
  | .ctrl => 0x00000003
  | .status => 0x0000033F
  | .result | .hdrExp | .bhdr | .fhdr => 0x0000FFFF
  | .baddr | .bcmd | .faddr | .fcmd | .flen | .fsum => 0x000000FF
  | .ilen | .olen => 0x000007FF
  | .lcount => 0x0000007F
  | .rpresLo | .rpresHi | .layout _ | .rval _ => 0xFFFFFFFF
  | .info => 0xF1FFFFFF
  | .fpay _ | .obuf _ | .rimg _ | .ibuf _ => 0x000000FF
  | .cmd | .ipush | .iclr | .unmapped => 0x00000000

/-- Is the instruction a write to CMD (a command, ILLEGAL among them), not IPUSH or ICLR (R66)? -/
def Instr.isCommand : Instr → Bool
  | .ipush _ | .iclr => false
  | .fbuild | .fprobe | .fparse | .lsize | .fdecode | .fencode => true
  | .illegalZero | .illegalSeven | .illegalHigh _ | .illegalMbz _ => true

/-- Is the instruction one of the field codec's commands (R155)? -/
def Instr.isFieldCommand (i : Instr) : Bool := i = .lsize || i = .fdecode || i = .fencode

/-- Is the instruction one of the frame codec's commands (R155)? -/
def Instr.isFrameCommand (i : Instr) : Bool := i = .fbuild || i = .fprobe || i = .fparse

end Sys2Proof

namespace Sys2Proof.Machine

open Sys2Proof

/-- `s` with all frame-codec state taken from `f`: CTRL, HDR_EXP, BHDR, BADDR, BCMD, the frame registers and FVALID
(R155). -/
def State.withFrameStateOf (s f : State) : State :=
  { s with
    vc := f.vc, vh := f.vh, hdrExp := f.hdrExp, bhdr := f.bhdr, baddr := f.baddr, bcmd := f.bcmd, fhdr := f.fhdr
    faddr := f.faddr, fcmd := f.fcmd, fsum := f.fsum, fpay := f.fpay, fvalid := f.fvalid }

/-- `s` with all field-codec state taken from `f`: LCOUNT, LAYOUT, RVAL, RIMG and RPRES (R155). -/
def State.withFieldStateOf (s f : State) : State :=
  { s with lcount := f.lcount, layout := f.layout, rval := f.rval, rimg := f.rimg, rpres := f.rpres }

/-- Two states' records are equal under a layout: the same fields present, with equal record views (R38). -/
def RecordsEqual (lay : Layout Nat) (s t : State) : Prop :=
  ∀ i, i < lay.length → s.recordView lay i = t.recordView lay i

/-- Field `i` fails in `field_encode` with error `e`: its name is missing, or its integer is out of range (R149). -/
def RecordFieldFails {ν : Type} [DecidableEq ν] (R : Record ν) (lay : Layout ν) (i : Nat) (e : ErrCode) : Prop :=
  ∃ f, lay[i]? = some f ∧
    ((R.get f.name = none ∧ e = .missingField) ∨
      ∃ v, R.get f.name = some (.int v) ∧ inRange f.signed f.size v = false ∧ e = .valueRange)

/-- RVAL[i] is the extension of its low `w` bits, as a field's signedness says (R151). -/
def State.WordInRange (s : State) (i : Nat) (f : LayoutField Nat) : Prop :=
  s.rval.getD i 0 =
    if f.signed then (BitVec.ofNat (8 * f.size) (s.rval.getD i 0).toNat).signExtend 32
    else (BitVec.ofNat (8 * f.size) (s.rval.getD i 0).toNat).setWidth 32

/-- Field `i` fails in FENCODE with error `e`: it is not present, or its word is out of range (R151). -/
def State.EncodeFails (s : State) (lay : Layout Nat) (i : Nat) (e : ErrCode) : Prop :=
  ∃ f, lay[i]? = some f ∧
    ((s.rpres.getLsbD i = false ∧ e = .missingField) ∨
      (s.rpres.getLsbD i = true ∧ f.kind.isBlock = false ∧ ¬ s.WordInRange i f ∧ e = .valueRange))

/-- The size in bytes of LAYOUT[i]'s descriptor (R90). -/
def State.descSizeAt (s : State) (i : Nat) : Nat := (descKind (s.layout.getD i 0)).size

/-- Field `i` is bad in the layout check: an invalid descriptor, or a cumulative size over BUF_SIZE (R141). -/
def State.BadField (s : State) (i : Nat) : Prop :=
  descValid (s.layout.getD i 0) = false ∨ Config.bufSize < ((List.range (i + 1)).map s.descSizeAt).sum

/-- Without FVALID every frame register is 0 and FPAY is empty, so a half-populated frame is never visible. -/
def State.FrameWhole (s : State) : Prop :=
  s.fvalid = false → s.fhdr = 0 ∧ s.faddr = 0 ∧ s.fcmd = 0 ∧ s.fsum = 0 ∧ s.fpay = []

/-- The invariant: ILEN and OLEN are at most BUF_SIZE, FLEN at most 255, RIMG's cells are in canonical form and lie
below BUF_SIZE, and the frame registers are whole or clear. -/
structure State.Inv (s : State) : Prop where
  ilen : s.ibuf.length ≤ Config.bufSize
  olen : s.obuf.length ≤ Config.bufSize
  flen : s.fpay.length ≤ Config.maxPayload
  rimg_wf : s.rimg.wf = true
  rimg_below : s.rimg.below Config.bufSize = true
  frame : s.FrameWhole

/-- The instructions of a list one after the other, up to the first that answers no next state. -/
def execAll : List Instr → State → Host.Outcome State Fault Refusal
  | [], s => .next s
  | i :: rest, s =>
    match exec i s with
    | .next t => execAll rest t
    | .fault f => .fault f
    | .refused r => .refused r

/-- A safe step: it answers a next state, and that state keeps the invariant. -/
def SafeStep (s : State) : Prop := ∃ t, step s = .next t ∧ t.Inv

end Sys2Proof.Machine
end

