-- ==== Sys2Proof/Certificates/Slice0/Obligations.lean ====
section
/-! DEFINITION. The statements about the block, from the numbered rules of the spec. An equation
`exec i s = .next { s with … }` says the instruction completes, gives every value it writes, and says that every
register, flag and byte it does not name is unchanged. -/

open Sys2Proof Sys2Proof.Machine

/-! ## Encodings and the bus -/

/-- Decoding an encoded instruction gives it back, every operand at every value (R80-R82, R67, R68). -/
def Obligations.DecodeEncodeAgree : Prop :=
  ∀ i : Instr, i.wf = true → decodeWrite (encode i).addr (encode i).data = .ok i

/-- Encoding a decoded bus write gives back its word address and every data bit the instruction has (R61, R67, R68,
R81); the decoder answers well-formed instructions only. -/
def Obligations.EncodeDecodeAgree : Prop :=
  ∀ (a : Addr) (v : Word) (i : Instr), decodeWrite a v = .ok i →
    i.wf = true ∧ (encode i).addr = a &&& 0xFFFC ∧
      (locate a = .cmd → (encode i).data = v) ∧
      (locate a = .ipush → (encode i).data = v &&& 0xFF)

/-- R81: bits 31:4 first, then OP; every value selects one behaviour. -/
def Obligations.CmdDecodeSelectsOneBehaviour : Prop :=
  ∀ v : Word,
    decodeCmd v =
      if v.toNat / 16 ≠ 0 then .illegalMbz v
      else if v.toNat = 1 then .fbuild
      else if v.toNat = 2 then .fprobe
      else if v.toNat = 3 then .fparse
      else if v.toNat = 4 then .lsize
      else if v.toNat = 5 then .fdecode
      else if v.toNat = 6 then .fencode
      else if v.toNat = 0 then .illegalZero
      else if v.toNat = 7 then .illegalSeven
      else .illegalHigh (BitVec.ofNat 3 (v.toNat - 8))

/-- The opcode table's rows decode to their instructions. -/
def Obligations.TableRowsDecode : Prop :=
  decodeTableWord 32 0x00000001 = some .fbuild ∧ decodeTableWord 32 0x00000002 = some .fprobe ∧
  decodeTableWord 32 0x00000003 = some .fparse ∧ decodeTableWord 32 0x00000004 = some .lsize ∧
  decodeTableWord 32 0x00000005 = some .fdecode ∧ decodeTableWord 32 0x00000006 = some .fencode ∧
  decodeTableWord 32 0x00000000 = some .illegalZero ∧ decodeTableWord 32 0x00000007 = some .illegalSeven ∧
  decodeTableWord 32 0x0000000B = some (.illegalHigh 3) ∧
  decodeTableWord 32 0x00000011 = some (.illegalMbz 0x00000011) ∧
  decodeTableWord 16 0x0024 = some (.ipush 0) ∧ decodeTableWord 16 0x0028 = some .iclr ∧
  decodeTableWord 48 0x01AB0027 = some (.ipush 0xAB)

/-- R62 and R94: the address of each location is one where the address map finds it, and only its own word's; every
location the map finds has its word's address. -/
def Obligations.AddressMapIsInverted : Prop :=
  (∀ (l : Loc) (a : Addr), addrOf l = some a → locate a = l ∧ ∀ b : Addr, locate b = l → b &&& 0xFFFC = a) ∧
  ∀ a : Addr, locate a ≠ .unmapped → addrOf (locate a) = some (a &&& 0xFFFC)

/-- R95: the pseudo-operations' expansions, for bytes and counts the windows hold. That a CMD line of IPUSH or ICLR
stands for no transfer is the model's choice (log entry 23). -/
def Obligations.PseudoOperationsExpand : Prop :=
  (∀ i : Instr, i.isCommand = true → Line.events (.cmd i) = [.write 0x0004 (encode i).data]) ∧
  (∀ i : Instr, i.isCommand = false → Line.events (.cmd i) = []) ∧
  (∀ bs : List Byte, Line.events (.push bs) = bs.map fun b => .write 0x0024 (b.setWidth 32)) ∧
  Line.events .clr = [.write 0x0028 0] ∧
  (∀ bs : List Byte, bs.length ≤ 1024 →
    Line.events (.rdobuf bs) = (List.range bs.length).map (fun k => .read (BitVec.ofNat 16 (0x1000 + 4 * k))) ∧
    Line.expected (.rdobuf bs) = bs.map fun b => b.setWidth 32)

/-- A step with a bus write pending that decodes to an instruction is `exec` of it, on the state without that event.
Taking the host's transfers from `pending`, oldest first, is the model's choice (log entry 1). -/
def Obligations.StepRunsDecodedInstruction : Prop :=
  ∀ (s : State) (a : Addr) (v : Word) (rest : List HostEvent) (i : Instr),
    s.pending = .write a v :: rest → decodeWrite a v = .ok i → step s = exec i { s with pending := rest }

/-- A step with a bus read pending answers it and changes nothing of the block; with nothing pending the state stays as
it is (the answers' list, the pending list and the idle step are the model's choice, log entries 1 to 3). -/
def Obligations.ReadsChangeNothing : Prop :=
  ∀ (s : State) (a : Addr) (rest : List HostEvent),
    (s.pending = .read a :: rest →
      step s = .next { s with pending := rest, answers := s.answers ++ [s.busRead a] }) ∧
    (s.pending = [] → step s = .next s)

/-- R61: a transfer acts at its word address, and every write is accepted. -/
def Obligations.MisalignedTransfersActOnTheWord : Prop :=
  ∀ (s : State) (a : Addr) (v : Word),
    s.busRead a = s.busRead (a &&& 0xFFFC) ∧ busWrite a v s = busWrite (a &&& 0xFFFC) v s ∧
      ∃ t, busWrite a v s = .next t

/-- R63: unmapped addresses, write-only registers and reserved bits read 0; writes to unmapped addresses, read-only
registers and reserved bits change nothing. -/
def Obligations.UnmappedAndReservedAreInert : Prop :=
  ∀ (s : State) (a : Addr) (v : Word), s.Inv →
    s.busRead a &&& ~~~ (locate a).definedBits = 0 ∧
    ((locate a).access = .unmapped ∨ (locate a).access = .writeOnly → s.busRead a = 0) ∧
    ((locate a).access = .unmapped ∨ (locate a).access = .readOnly → busWrite a v s = .next s) ∧
    ((locate a).access = .readWrite → busWrite a v s = busWrite a (v &&& (locate a).definedBits) s)

/-- R65 with the map of R62: what a write to each read/write register stores, whatever the value; RPRES is cleared by
LCOUNT and LAYOUT writes (R196). -/
def Obligations.RegisterWritesStoreTheirFields : Prop :=
  ∀ (s : State) (v : Word),
    busWrite 0x0000 v s = .next { s with vc := v.getLsbD 0, vh := v.getLsbD 1 } ∧
    busWrite 0x0010 v s = .next { s with hdrExp := v.extractLsb' 0 16 } ∧
    busWrite 0x0014 v s = .next { s with bhdr := v.extractLsb' 0 16 } ∧
    busWrite 0x0018 v s = .next { s with baddr := v.extractLsb' 0 8 } ∧
    busWrite 0x001C v s = .next { s with bcmd := v.extractLsb' 0 8 } ∧
    busWrite 0x0044 v s = .next { s with lcount := v.extractLsb' 0 7, rpres := 0 } ∧
    busWrite 0x0048 v s = .next { s with rpres := s.rpres.extractLsb' 32 32 ++ v } ∧
    busWrite 0x004C v s = .next { s with rpres := v ++ s.rpres.extractLsb' 0 32 } ∧
    ∀ i : Fin 64,
      busWrite (BitVec.ofNat 16 (0x0100 + 4 * i.val)) v s = .next { s with layout := s.layout.set i v, rpres := 0 } ∧
      busWrite (BitVec.ofNat 16 (0x0200 + 4 * i.val)) v s = .next { s with rval := s.rval.set i v }

/-- A write to a read/write location is read back in its defined bits (R65, R71); for RIMG, below BUF_SIZE. -/
def Obligations.WriteThenReadGivesStoredBits : Prop :=
  ∀ (s : State) (a : Addr) (v : Word), s.Inv → (locate a).access = .readWrite →
    (∀ i, locate a = .rimg i → i < Config.bufSize) →
    ∃ t, busWrite a v s = .next t ∧ t.busRead a = v &&& (locate a).definedBits

/-- R64: what the four windows read, and what a write to one of them does, byte by byte. -/
def Obligations.WindowReadsAndWrites : Prop :=
  ∀ (s : State) (v : Word), s.Inv →
    (∀ i : Nat, i < 256 → s.busRead (BitVec.ofNat 16 (0x0400 + 4 * i)) =
      if h : i < s.fpay.length then (s.fpay[i]).setWidth 32 else 0) ∧
    (∀ i : Nat, i < 1024 → s.busRead (BitVec.ofNat 16 (0x1000 + 4 * i)) =
      if h : i < s.obuf.length then (s.obuf[i]).setWidth 32 else 0) ∧
    (∀ i : Nat, i < 1024 → s.busRead (BitVec.ofNat 16 (0x3000 + 4 * i)) =
      if h : i < s.ibuf.length then (s.ibuf[i]).setWidth 32 else 0) ∧
    (∀ i : Nat, i < 1024 → s.busRead (BitVec.ofNat 16 (0x2000 + 4 * i)) =
      if i < Config.bufSize then (s.rimg.read i).setWidth 32 else 0) ∧
    (∀ i : Nat, i < 1024 → ∃ t, busWrite (BitVec.ofNat 16 (0x2000 + 4 * i)) v s = .next t ∧
      t = { s with rimg := t.rimg } ∧
      ∀ j, t.rimg.read j = if i < Config.bufSize ∧ j = i then v.extractLsb' 0 8 else s.rimg.read j) ∧
    (∀ i : Nat, i < 256 → busWrite (BitVec.ofNat 16 (0x0400 + 4 * i)) v s = .next s) ∧
    (∀ i : Nat, i < 1024 → busWrite (BitVec.ofNat 16 (0x1000 + 4 * i)) v s = .next s ∧
      busWrite (BitVec.ofNat 16 (0x3000 + 4 * i)) v s = .next s)

/-- R196: a write to LCOUNT or LAYOUT clears RPRES and keeps RVAL and RIMG, whatever is written; FENCODE then reports
MISSING_FIELD(0) for a layout that passes the check and has a field. -/
def Obligations.LayoutWritesInvalidateRecord : Prop :=
  ∀ (s : State) (a : Addr) (v : Word), locate a = .lcount ∨ (∃ i, locate a = .layout i) →
    ∃ t, busWrite a v s = .next t ∧ t.rpres = 0 ∧ t.rval = s.rval ∧ t.rimg = s.rimg ∧
      ∀ lay, t.layoutCheck = .ok lay → 0 < t.lcount.toNat →
        exec .fencode t = .next { t with
          err := .missingField, hdrOk := false, csumOk := false, result := 0, obuf := [] }

/-- R25 and R170: STATUS as the host reads it, with the code of every error; and the other read-only registers under
the map of R62: RESULT (R26), ILEN and OLEN (R32, R33), FHDR, FADDR, FCMD, FLEN and FSUM (R34). A count is read whole in
every state that keeps its limit. INFO and the windows have their own statements. -/
def Obligations.StatusRegisterFields : Prop :=
  ∀ s : State,
    (s.busRead 0x0008).extractLsb' 0 4 = s.err.code ∧
    (s.busRead 0x0008).getLsbD 4 = s.hdrOk ∧ (s.busRead 0x0008).getLsbD 5 = s.csumOk ∧
    (s.busRead 0x0008).extractLsb' 6 2 = 0 ∧
    (s.busRead 0x0008).getLsbD 8 = s.fvalid ∧ (s.busRead 0x0008).getLsbD 9 = s.iovf ∧
    (s.busRead 0x0008).extractLsb' 10 22 = 0 ∧
    ErrCode.ok.code = 0 ∧ ErrCode.insufficientData.code = 1 ∧ ErrCode.headerMismatch.code = 2 ∧
    ErrCode.checksumMismatch.code = 3 ∧ ErrCode.bufferTooSmall.code = 4 ∧ ErrCode.missingField.code = 5 ∧
    ErrCode.valueRange.code = 6 ∧ ErrCode.layoutInvalid.code = 7 ∧ ErrCode.payloadTooLong.code = 8 ∧
    ErrCode.illegalOp.code = 9 ∧
    (s.busRead 0x000C).toNat = s.result.toNat ∧
    (s.busRead 0x0030).toNat = s.fhdr.toNat ∧ (s.busRead 0x0034).toNat = s.faddr.toNat ∧
    (s.busRead 0x0038).toNat = s.fcmd.toNat ∧ (s.busRead 0x0040).toNat = s.fsum.toNat ∧
    (s.Inv →
      (s.busRead 0x0020).toNat = s.ibuf.length ∧ (s.busRead 0x002C).toNat = s.obuf.length ∧
      (s.busRead 0x003C).toNat = s.fpay.length)

/-- R27: INFO is a constant that shows the parameters. -/
def Obligations.InfoShowsTheParameters : Prop :=
  ∀ (s : State) (v : Word),
    ((s.busRead 0x0050).extractLsb' 0 16).toNat = Config.bufSize ∧
    261 ≤ Config.bufSize ∧ Config.bufSize ≤ 1024 ∧
    (s.busRead 0x0050).extractLsb' 16 8 = 64 ∧
    ((s.busRead 0x0050).getLsbD 24 = true ↔ Config.nativeOrder = .le) ∧
    (s.busRead 0x0050).extractLsb' 25 3 = 0 ∧
    (s.busRead 0x0050).extractLsb' 28 4 = 1 ∧
    busWrite 0x0050 v s = .next s

/-! ## Input -/

/-- R67: IPUSH appends the low byte of the data, or drops it and sets IOVF where IBUF is full. -/
def Obligations.IpushAppendsOrOverflows : Prop :=
  ∀ (s : State) (b : Byte) (v : Word),
    (s.ibuf.length < Config.bufSize → exec (.ipush b) s = .next { s with ibuf := s.ibuf ++ [b] }) ∧
    (Config.bufSize ≤ s.ibuf.length → exec (.ipush b) s = .next { s with iovf := true }) ∧
    busWrite 0x0024 v s = exec (.ipush (BitVec.ofNat 8 v.toNat)) s

/-- R68: ICLR empties IBUF and clears IOVF, whatever the data, and changes nothing else. -/
def Obligations.IclrEmptiesInput : Prop :=
  ∀ (s : State) (v : Word),
    exec .iclr s = .next { s with ibuf := [], iovf := false } ∧
    busWrite 0x0028 v s = .next { s with ibuf := [], iovf := false }

/-- ICLR and then one IPUSH for each byte leave exactly those bytes in IBUF, if they fit (R67, R68). That the transfers
stand in `pending` is the model's choice (log entry 1). -/
def Obligations.ClearThenPushesFillInput : Prop :=
  ∀ (s : State) (bs : List Byte), bs.length ≤ Config.bufSize →
    s.pending = .write 0x0028 0 :: bs.map (fun b => .write 0x0024 (b.setWidth 32)) →
      Host.Core.run core (bs.length + 1) s = .next { s with ibuf := bs, iovf := false, pending := [] }

/-! ## The frame codec -/

/-- R110: the modulo-256 sum of the bytes; a built frame's last byte is that sum of all the bytes before it. -/
def Obligations.ChecksumIsByteSum : Prop :=
  (∀ B : List Byte, (checksum8 B).toNat = (B.map BitVec.toNat).sum % 256) ∧
  ∀ (h0 h1 a c : Byte) (P F : List Byte), frameBuild h0 h1 a c P = some F →
    ∃ body : List Byte, body = [h0, h1, a, c, BitVec.ofNat 8 P.length] ++ P ∧
      F = body ++ [BitVec.ofNat 8 ((body.map BitVec.toNat).sum % 256)]

/-- R111: on a complete frame the verifier compares the last byte with the sum of the others; it ignores their order
and misses any error that keeps the sum mod 256. The checksum it compares with does so on every list of bytes. -/
def Obligations.VerifierSeesOnlyTheByteSum : Prop :=
  (∀ body body' : List Byte,
    (body.Perm body' → checksum8 body = checksum8 body') ∧
    ((body.map BitVec.toNat).sum % 256 = (body'.map BitVec.toNat).sum % 256 ↔ checksum8 body = checksum8 body')) ∧
  ∀ (body body' : List Byte) (x : Byte), (body ++ [x]).length = ((body ++ [x]).getD 4 0).toNat + 6 →
    csumOk (body ++ [x]) = some (decide ((body.map BitVec.toNat).sum % 256 = x.toNat)) ∧
    ((body' ++ [x]).length = ((body' ++ [x]).getD 4 0).toNat + 6 →
      (body.Perm body' → csumOk (body ++ [x]) = csumOk (body' ++ [x])) ∧
      ((body.map BitVec.toNat).sum % 256 = (body'.map BitVec.toNat).sum % 256 →
        csumOk (body ++ [x]) = csumOk (body' ++ [x])))

/-- R112: the built frame, byte for byte; a payload over 255 bytes is refused. -/
def Obligations.FrameBuildGivesBytes : Prop :=
  ∀ (h0 h1 a c : Byte) (P : List Byte),
    (P.length ≤ 255 → frameBuild h0 h1 a c P =
      some (h0 :: h1 :: a :: c :: BitVec.ofNat 8 P.length :: (P ++
        [BitVec.ofNat 8 (h0.toNat + h1.toNat + a.toNat + c.toNat + P.length + (P.map BitVec.toNat).sum)]))) ∧
    (255 < P.length → frameBuild h0 h1 a c P = none)

/-- R115: the shape of a built frame. -/
def Obligations.BuiltFrameShape : Prop :=
  ∀ (h0 h1 a c : Byte) (P : List Byte), P.length ≤ 255 →
    ∃ F, frameBuild h0 h1 a c P = some F ∧ F.length = P.length + 6 ∧
      (F[4]?).map BitVec.toNat = some P.length ∧ (F.drop 5).take P.length = P ∧
      csumOk F = some true ∧ frameProbe F = F.length

/-- R113: FBUILD writes the frame of BHDR, BADDR, BCMD and the payload IBUF to OBUF, which holds it; a payload over 255
bytes is PAYLOAD_TOO_LONG(ILEN) and empties OBUF. Nothing else changes. CMD word 1 runs it. -/
def Obligations.FbuildWritesFrame : Prop :=
  ∀ (s : State) (body : List Byte),
    body = [s.bhdr.extractLsb' 8 8, s.bhdr.extractLsb' 0 8, s.baddr, s.bcmd, BitVec.ofNat 8 s.ibuf.length] ++ s.ibuf →
    (s.ibuf.length ≤ 255 →
      s.ibuf.length + 6 ≤ Config.bufSize ∧
      exec .fbuild s = .next { s with
        obuf := body ++ [BitVec.ofNat 8 (body.map BitVec.toNat).sum]
        result := BitVec.ofNat 16 (s.ibuf.length + 6), err := .ok, hdrOk := false, csumOk := false }) ∧
    (255 < s.ibuf.length →
      exec .fbuild s = .next { s with
        obuf := [], result := BitVec.ofNat 16 s.ibuf.length, err := .payloadTooLong, hdrOk := false
        csumOk := false }) ∧
    busWrite 0x0004 0x00000001 s = exec .fbuild s

/-- R114: FBUILD from equal operands writes equal OBUF, OLEN and RESULT. -/
def Obligations.FbuildIsDeterminedByOperands : Prop :=
  ∀ s s' : State, s.bhdr = s'.bhdr → s.baddr = s'.baddr → s.bcmd = s'.bcmd → s.ibuf = s'.ibuf →
    ∃ t t', exec .fbuild s = .next t ∧ exec .fbuild s' = .next t' ∧
      t.obuf = t'.obuf ∧ t.obuf.length = t'.obuf.length ∧ t.result = t'.result

/-- R116 and R118: the probe is 0 below five bytes, else the length byte plus 6, whatever the other bytes are; FPROBE's
RESULT is the probe of IBUF, STATUS is OK, and nothing else changes. CMD word 2 runs it. -/
def Obligations.FprobeGivesLength : Prop :=
  (∀ B : List Byte,
    (B.length < 5 → frameProbe B = 0) ∧
    (∀ h : 5 ≤ B.length, frameProbe B = 5 + (B[4]).toNat + 1 ∧ 6 ≤ frameProbe B ∧ frameProbe B ≤ 261)) ∧
  ∀ s : State,
    exec .fprobe s = .next { s with
      result := if h : 5 ≤ s.ibuf.length then BitVec.ofNat 16 (5 + (s.ibuf[4]).toNat + 1) else 0
      err := .ok, hdrOk := false, csumOk := false } ∧
    busWrite 0x0004 0x00000002 s = exec .fprobe s

/-- R123 with the order of checks of R121: FPARSE's five outcomes. `B` is IBUF's content, `h` the header match, `n` the
length byte, `c` the checksum match. The last clauses: FLEN is the length byte, and CMD word 3 runs it. -/
def Obligations.FparseOutcomes : Prop :=
  ∀ (s : State) (B : List Byte) (n : Nat) (h c : Bool),
    B = s.ibuf → n = (B.getD 4 0).toNat →
    h = decide (B.getD 0 0 = s.hdrExp.extractLsb' 8 8 ∧ B.getD 1 0 = s.hdrExp.extractLsb' 0 8) →
    c = decide (((B.take (5 + n)).map BitVec.toNat).sum % 256 = (B.getD (5 + n) 0).toNat) →
    exec .fparse s =
      (if B.length < 5 then
        .next { s with
          fhdr := 0, faddr := 0, fcmd := 0, fsum := 0, fpay := [], fvalid := false
          err := .insufficientData, hdrOk := false, csumOk := false, result := 0 }
      else if s.vh = true ∧ h = false then
        .next { s with
          fhdr := 0, faddr := 0, fcmd := 0, fsum := 0, fpay := [], fvalid := false
          err := .headerMismatch, hdrOk := false, csumOk := false, result := BitVec.ofNat 16 (n + 6) }
      else if B.length < n + 6 then
        .next { s with
          fhdr := 0, faddr := 0, fcmd := 0, fsum := 0, fpay := [], fvalid := false
          err := .insufficientData, hdrOk := h, csumOk := false, result := BitVec.ofNat 16 (n + 6) }
      else if s.vc = true ∧ c = false then
        .next { s with
          fhdr := 0, faddr := 0, fcmd := 0, fsum := 0, fpay := [], fvalid := false
          err := .checksumMismatch, hdrOk := h, csumOk := false, result := BitVec.ofNat 16 (n + 6) }
      else
        .next { s with
          fhdr := B.getD 0 0 ++ B.getD 1 0, faddr := B.getD 2 0, fcmd := B.getD 3 0, fsum := B.getD (5 + n) 0
          fpay := (B.drop 5).take n, fvalid := true
          err := .ok, hdrOk := h, csumOk := c, result := BitVec.ofNat 16 (n + 6) }) ∧
    (n + 6 ≤ B.length → ((B.drop 5).take n).length = n) ∧
    busWrite 0x0004 0x00000003 s = exec .fparse s

/-- R122: on a complete frame, a checksum mismatch rejects only under VC and a header mismatch only under VH; a frame
that is accepted reports both comparisons. -/
def Obligations.StrictnessPolicy : Prop :=
  ∀ (s : State) (n : Nat) (h c : Bool),
    n = (s.ibuf.getD 4 0).toNat → n + 6 ≤ s.ibuf.length →
    h = decide (s.ibuf.getD 0 0 = s.hdrExp.extractLsb' 8 8 ∧ s.ibuf.getD 1 0 = s.hdrExp.extractLsb' 0 8) →
    c = decide (((s.ibuf.take (5 + n)).map BitVec.toNat).sum % 256 = (s.ibuf.getD (5 + n) 0).toNat) →
    ∃ t, exec .fparse s = .next t ∧
      (t.err = .headerMismatch ↔ s.vh = true ∧ h = false) ∧
      (t.err = .checksumMismatch ↔ (s.vh = true → h = true) ∧ s.vc = true ∧ c = false) ∧
      (t.err = .ok ↔ (s.vh = true → h = true) ∧ (s.vc = true → c = true)) ∧
      (t.fvalid = true ↔ t.err = .ok) ∧
      (t.err = .ok → t.hdrOk = h ∧ t.csumOk = c)

/-- R124: the round trip of build and parse, with any bytes after the frame. -/
def Obligations.BuildParseRoundTrip : Prop :=
  ∀ (vc vh : Bool) (E : Byte × Byte) (h0 h1 a c : Byte) (P T : List Byte), P.length ≤ 255 →
    ∃ F, frameBuild h0 h1 a c P = some F ∧
      (vh = false ∨ (h0, h1) = E →
        ∃ f, (frameParse vc vh E (F ++ T)).res = .ok f F.length ∧ f.payload = P ∧ f.addr = a ∧ f.cmd = c ∧
          (frameParse vc vh E (F ++ T)).csumOk = true ∧
          (frameParse vc vh E (F ++ T)).hdrOk = decide ((h0, h1) = E)) ∧
      (vh = true ∧ (h0, h1) ≠ E → (frameParse vc vh E (F ++ T)).res = .err .headerMismatch)

/-- R125: a strict prefix of a built frame is insufficient data, or a header mismatch; it is never accepted. -/
def Obligations.StrictPrefixNeverParses : Prop :=
  ∀ (vc vh : Bool) (E : Byte × Byte) (h0 h1 a c : Byte) (P F : List Byte) (k : Nat),
    frameBuild h0 h1 a c P = some F → k < F.length →
      (frameParse vc vh E (F.take k)).res =
        if vh = true ∧ 5 ≤ k ∧ (h0, h1) ≠ E then .err .headerMismatch else .err .insufficientData

/-- R126: FPARSE's writes depend on CTRL, HDR_EXP and IBUF alone, and a second FPARSE leaves the same state. -/
def Obligations.FparseIsPureAndIdempotent : Prop :=
  (∀ s : State, ∃ t, exec .fparse s = .next t ∧ exec .fparse t = .next t) ∧
  ∀ s s' : State, s.vc = s'.vc → s.vh = s'.vh → s.hdrExp = s'.hdrExp → s.ibuf = s'.ibuf →
    ∃ t t', exec .fparse s = .next t ∧ exec .fparse s' = .next t' ∧
      t' = { s' with
        fhdr := t.fhdr, faddr := t.faddr, fcmd := t.fcmd, fsum := t.fsum, fpay := t.fpay, fvalid := t.fvalid
        err := t.err, hdrOk := t.hdrOk, csumOk := t.csumOk, result := t.result }

/-- R127: the parse depends on the frame's own bytes and on whether they are all there; bytes after a complete frame
never change the outcome. -/
def Obligations.ParseDependsOnFrameBytes : Prop :=
  ∀ (vc vh : Bool) (E : Byte × Byte) (B C : List Byte), 5 ≤ B.length →
    B.take (min B.length (frameProbe B)) = C.take (min C.length (frameProbe B)) →
    (frameProbe B ≤ B.length ↔ frameProbe B ≤ C.length) →
    frameParse vc vh E B = frameParse vc vh E C ∧
    (frameProbe B ≤ B.length → ∀ T, frameParse vc vh E (B ++ T) = frameParse vc vh E B)

/-- The round trip at level 2 (R113, R123, R124): FBUILD, then ICLR, IPUSH of each byte of OBUF and FPARSE, gives back
the operands and the payload. -/
def Obligations.LoopedBackFrameParses : Prop :=
  ∀ s : State, s.ibuf.length ≤ 255 → s.vh = false ∨ s.bhdr = s.hdrExp →
    ∃ t u, exec .fbuild s = .next t ∧ execAll (.iclr :: (t.obuf.map .ipush ++ [.fparse])) t = .next u ∧
      u.err = .ok ∧ u.fvalid = true ∧ u.csumOk = true ∧ u.hdrOk = decide (s.bhdr = s.hdrExp) ∧
      u.fhdr = s.bhdr ∧ u.faddr = s.baddr ∧ u.fcmd = s.bcmd ∧ u.fpay = s.ibuf ∧
      u.result = BitVec.ofNat 16 (s.ibuf.length + 6)

/-! ## Descriptors and layouts -/

/-- R89 and R90: exactly the valid descriptors have a field, of the size and width the KIND and N give; ORDER has no
effect on a byte or a block. A layout with an invalid descriptor is LAYOUT_INVALID in each command that uses it. -/
def Obligations.DescriptorValidityAndSize : Prop :=
  (∀ (s : State) (j : Nat) (i : Instr), s.lcount.toNat ≤ 64 → j < s.lcount.toNat →
    descField j (s.layout.getD j 0) = none → i.isFieldCommand = true →
    ∃ k t, k ≤ j ∧ exec i s = .next t ∧ t.err = .layoutInvalid ∧ t.result = BitVec.ofNat 16 k) ∧
  ∀ (i : Nat) (d : Word),
    ((descField i d).isSome = true ↔
      d.extractLsb' 2 2 ≠ 3 ∧ d.extractLsb' 5 11 = 0 ∧
        (d.extractLsb' 0 2 = 3 → d.getLsbD 4 = false) ∧ (d.extractLsb' 0 2 ≠ 3 → d.extractLsb' 16 16 = 0)) ∧
    ∀ f, descField i d = some f →
      f.size = [1, 2, 4, (d.extractLsb' 16 16).toNat].getD (d.extractLsb' 0 2).toNat 0 ∧ f.width = 8 * f.size ∧
        (f.kind = .byte ∨ f.kind.isBlock = true → ∀ (native : ByteOrder) (o : Order) (b : List Byte),
          b.length = f.size → fieldValue native { f with order := o } b = fieldValue native f b)

/-- R91: the common descriptor values. -/
def Obligations.CommonDescriptors : Prop :=
  (∀ i : Nat,
    descField i 0x00000000 = some ⟨i, .byte, .be, false⟩ ∧ descField i 0x00000010 = some ⟨i, .byte, .be, true⟩ ∧
    descField i 0x00000001 = some ⟨i, .int16, .be, false⟩ ∧ descField i 0x00000005 = some ⟨i, .int16, .le, false⟩ ∧
    descField i 0x00000009 = some ⟨i, .int16, .native, false⟩ ∧
    descField i 0x00000011 = some ⟨i, .int16, .be, true⟩ ∧ descField i 0x00000015 = some ⟨i, .int16, .le, true⟩ ∧
    descField i 0x00000019 = some ⟨i, .int16, .native, true⟩ ∧
    descField i 0x00000002 = some ⟨i, .int32, .be, false⟩ ∧ descField i 0x00000006 = some ⟨i, .int32, .le, false⟩ ∧
    descField i 0x0000000A = some ⟨i, .int32, .native, false⟩ ∧
    descField i 0x00000012 = some ⟨i, .int32, .be, true⟩ ∧ descField i 0x00000016 = some ⟨i, .int32, .le, true⟩ ∧
    descField i 0x0000001A = some ⟨i, .int32, .native, true⟩) ∧
  ∀ i n : Nat, n < 65536 → descField i (BitVec.ofNat 32 (n * 0x10000 + 3)) = some ⟨i, .block n, .be, false⟩

/-- R141: the layout check reports 0xFFFF for LCOUNT over 64, else the lowest index whose descriptor is invalid or whose
cumulative size is over BUF_SIZE, else every field of the layout. LSIZE, FDECODE and FENCODE report what it reports. -/
def Obligations.LayoutCheckFindsFirstBadField : Prop :=
  ∀ s : State,
    (∀ (i : Instr) (info : Nat), i.isFieldCommand = true → s.layoutCheck = .error info →
      ∃ t, exec i s = .next t ∧ t.err = .layoutInvalid ∧ t.result = BitVec.ofNat 16 info) ∧
    (64 < s.lcount.toNat → s.layoutCheck = .error 0xFFFF) ∧
    (s.lcount.toNat ≤ 64 →
      (∀ i, s.layoutCheck = .error i ↔ i < s.lcount.toNat ∧ s.BadField i ∧ ∀ j, j < i → ¬ s.BadField j) ∧
      ((∀ i, i < s.lcount.toNat → ¬ s.BadField i) → ∃ lay, s.layoutCheck = .ok lay ∧
        lay.length = s.lcount.toNat ∧ totalSize lay ≤ Config.bufSize ∧
        totalSize lay = ((List.range s.lcount.toNat).map s.descSizeAt).sum ∧
        ∀ i, i < s.lcount.toNat → lay[i]? = descField i (s.layout.getD i 0)))

/-- R145: LSIZE gives `layout_size`, or LAYOUT_INVALID; nothing but RESULT and STATUS changes. CMD word 4 runs it. -/
def Obligations.LsizeGivesLayoutSize : Prop :=
  ∀ s : State,
    (∀ lay, s.layoutCheck = .ok lay →
      layoutSize lay = some (lay.map fun f => f.size).sum ∧
      exec .lsize s = .next { s with
        result := BitVec.ofNat 16 (lay.map fun f => f.size).sum, err := .ok, hdrOk := false, csumOk := false }) ∧
    (∀ info, s.layoutCheck = .error info →
      exec .lsize s = .next { s with
        result := BitVec.ofNat 16 info, err := .layoutInvalid, hdrOk := false, csumOk := false }) ∧
    busWrite 0x0004 0x00000004 s = exec .lsize s

/-! ## Integers -/

/-- R142: packing and unpacking by position, and the value and the range of a field. -/
def Obligations.PackAndUnpackByPosition : Prop :=
  (∀ b : List Byte,
    unpack .le b = ((List.range b.length).map fun k => (b.getD k 0).toNat * 256 ^ k).sum ∧
    unpack .be b = ((List.range b.length).map fun k => (b.getD k 0).toNat * 256 ^ (b.length - 1 - k)).sum) ∧
  (∀ s u : Nat,
    pack .le s u = (List.range s).map (fun k => BitVec.ofNat 8 (u / 256 ^ k % 256)) ∧
    pack .be s u = (List.range s).map (fun k => BitVec.ofNat 8 (u / 256 ^ (s - 1 - k) % 256))) ∧
  (∀ s u : Nat, intValue false s u = u ∧
    intValue true s u = if 2 ^ (8 * s - 1) ≤ u then (u : Int) - 2 ^ (8 * s) else u) ∧
  (∀ (s : Nat) (v : Int),
    (inRange false s v = true ↔ 0 ≤ v ∧ v < 2 ^ (8 * s)) ∧
    (inRange true s v = true ↔ -(2 ^ (8 * s - 1)) ≤ v ∧ v < 2 ^ (8 * s - 1))) ∧
  (∀ (b : Byte) (u : Nat), unpack .be [b] = unpack .le [b] ∧ pack .be 1 u = pack .le 1 u)

/-- Packing and unpacking are inverse in either byte order (R142, R152). -/
def Obligations.PackUnpackInverse : Prop :=
  ∀ (o : ByteOrder) (s u : Nat) (b : List Byte),
    (u < 2 ^ (8 * s) → unpack o (pack o s u) = u) ∧ (b.length = s → pack o s (unpack o b) = b)

/-- R143: NATIVE is NATIVE_ORDER, which INFO.NATIVE_LE shows; the other orders are their own, and no
order adds padding. -/
def Obligations.NativeOrderResolution : Prop :=
  ∀ (s : State) (native : ByteOrder) (lay : Layout Nat) (i : Nat) (o : Order),
    fieldOffset (lay.map fun f => { f with order := o }) i = fieldOffset lay i ∧
    Order.eff native .be = .be ∧ Order.eff native .le = .le ∧ Order.eff native .native = native ∧
    Order.eff Config.nativeOrder .native = if (s.busRead 0x0050).getLsbD 24 then .le else .be

/-! ## The field codec, level 1 -/

/-- R144, R146, R147: a buffer shorter than the layout is BUFFER_TOO_SMALL(S); any other decodes, and bytes past S do
not matter. -/
def Obligations.DecodeNeedsLayoutSizeBytes : Prop :=
  ∀ (ν : Type) [DecidableEq ν] (native : ByteOrder) (lay : Layout ν) (B T : List Byte), layoutAdmitted lay = true →
    layoutSize lay = some (lay.map fun f => f.size).sum ∧
    (B.length < (lay.map fun f => f.size).sum →
      fieldDecode native lay B = .err .bufferTooSmall (lay.map fun f => f.size).sum) ∧
    ((lay.map fun f => f.size).sum ≤ B.length →
      ∃ R, fieldDecode native lay B = .ok R ∧ fieldDecode native lay (B ++ T) = .ok R ∧
        R.map Prod.fst = lay.map fun f => f.name)

/-- R154: a decoded field's value is that of its own bytes under its own format, and changing one field's byte order
changes no other field's value. -/
def Obligations.FieldsDecodeIndependently : Prop :=
  ∀ (ν : Type) [DecidableEq ν] (native : ByteOrder) (lay : Layout ν) (B : List Byte) (R : Record ν),
    fieldDecode native lay B = .ok R →
    (∀ (i : Nat) (f : LayoutField ν), lay[i]? = some f →
      R.get f.name = some (if f.kind.isBlock then .bytes ((B.drop (fieldOffset lay i)).take f.size)
        else .int (intValue f.signed f.size
          (unpack (f.order.eff native) ((B.drop (fieldOffset lay i)).take f.size))))) ∧
    (∀ (k : Nat) (o : Order), ∃ R', fieldDecode native (lay.modify k fun f => { f with order := o }) B = .ok R' ∧
      ∀ (i : Nat) (f : LayoutField ν), lay[i]? = some f → i ≠ k → R'.get f.name = R.get f.name)

/-- The first field with an error decides, MISSING_FIELD before VALUE_RANGE; with none, the fields' bytes in order;
names that are not in the layout do not matter (R149). A value of the wrong kind is refused; that it is refused also
where another field is missing or out of range is the model's reading (DEDUCED, log entry 10). -/
def Obligations.EncodeReportsFirstFailingField : Prop :=
  ∀ (ν : Type) [DecidableEq ν] (native : ByteOrder) (R R' : Record ν) (lay : Layout ν), layoutAdmitted lay = true →
    (lay.all (kindMatches R) = false → fieldEncode native R lay = .refused) ∧
    ((∀ f ∈ lay, R'.get f.name = R.get f.name) → fieldEncode native R' lay = fieldEncode native R lay) ∧
    (lay.all (kindMatches R) = true → ∀ i e, RecordFieldFails R lay i e →
      (∀ j e', j < i → ¬ RecordFieldFails R lay j e') →
      fieldEncode native R lay = .err e i) ∧
    (lay.all (kindMatches R) = true → (∀ i e, ¬ RecordFieldFails R lay i e) →
      ∃ out, fieldEncode native R lay = .ok out ∧
      out.length = totalSize lay ∧
      ∀ i f, lay[i]? = some f →
        (∀ b, R.get f.name = some (.bytes b) → (out.drop (fieldOffset lay i)).take f.size = b) ∧
        (∀ v, R.get f.name = some (.int v) → (out.drop (fieldOffset lay i)).take f.size =
          pack (f.order.eff native) f.size (v % 2 ^ (8 * f.size)).toNat))

/-- Inputs outside a level-1 signature are refused (R13, R111, R112, R140, R149): a repeated name, a signed block, a value
of the wrong kind, a payload over 255 bytes, a frame that is not complete; and only those. That this is decided before
any error is the model's reading (DEDUCED, log entry 10). -/
def Obligations.LevelOneRefusals : Prop :=
  ∀ (ν : Type) [DecidableEq ν] (native : ByteOrder) (lay : Layout ν) (R : Record ν) (B : List Byte) (h0 h1 a c : Byte),
    (layoutSize lay = none ↔
      ¬ (lay.map fun f => f.name).Nodup ∨ ∃ f ∈ lay, f.signed = true ∧ ∃ n, f.kind = .block n) ∧
    (fieldDecode native lay B = .refused ↔
      ¬ (lay.map fun f => f.name).Nodup ∨ ∃ f ∈ lay, f.signed = true ∧ ∃ n, f.kind = .block n) ∧
    (fieldEncode native R lay = .refused ↔
      ¬ (lay.map fun f => f.name).Nodup ∨ ∃ f ∈ lay, (f.signed = true ∧ ∃ n, f.kind = .block n) ∨
        (∃ v n, R.get f.name = some (.int v) ∧ f.kind = .block n) ∨
        (∃ b, R.get f.name = some (.bytes b) ∧ ∀ n, f.kind = .block n → b.length ≠ n)) ∧
    (frameBuild h0 h1 a c B = none ↔ 255 < B.length) ∧
    (csumOk B = none ↔ B.length ≠ (B.getD 4 0).toNat + 6)

/-! ## The field codec, level 2 -/

/-- R148: FDECODE. LAYOUT_INVALID comes first and BUFFER_TOO_SMALL(S) second, and each clears the whole record. On
success the record is written field by field, bit by bit and byte by byte, nothing else but RESULT and STATUS changes,
and every field's record view is `field_decode`'s value for it. CMD word 5 runs it. -/
def Obligations.FdecodeOutcomes : Prop :=
  ∀ s : State,
    (∀ info, s.layoutCheck = .error info →
      exec .fdecode s = .next { s with
        rval := Vector.replicate 64 0, rimg := [], rpres := 0, result := BitVec.ofNat 16 info, err := .layoutInvalid
        hdrOk := false, csumOk := false }) ∧
    (∀ lay : Layout Nat, s.layoutCheck = .ok lay → s.ibuf.length < totalSize lay →
      exec .fdecode s = .next { s with
        rval := Vector.replicate 64 0, rimg := [], rpres := 0, result := BitVec.ofNat 16 (totalSize lay)
        err := .bufferTooSmall, hdrOk := false, csumOk := false }) ∧
    (∀ lay : Layout Nat, s.layoutCheck = .ok lay → totalSize lay ≤ s.ibuf.length →
      ∃ t R, exec .fdecode s = .next t ∧
        t = { s with
          rval := t.rval, rimg := t.rimg, rpres := t.rpres, result := BitVec.ofNat 16 (totalSize lay), err := .ok
          hdrOk := false, csumOk := false } ∧
        (∀ i : Fin 64, t.rval.get i =
          match lay[i.val]? with
          | none => 0
          | some f =>
            let u := unpack (f.order.eff Config.nativeOrder) ((s.ibuf.drop (fieldOffset lay i.val)).take f.size)
            if f.kind.isBlock then 0
            else if f.signed then (BitVec.ofNat (8 * f.size) u).signExtend 32 else BitVec.ofNat 32 u) ∧
        (∀ i : Nat, i < 64 → t.rpres.getLsbD i = decide (i < s.lcount.toNat)) ∧
        (∀ k : Nat, t.rimg.read k = if k < totalSize lay then s.ibuf.getD k 0 else 0) ∧
        fieldDecode Config.nativeOrder lay s.ibuf = .ok R ∧
        ∀ i, i < s.lcount.toNat → (R.get i).isSome = true ∧ t.recordView lay i = R.get i) ∧
    busWrite 0x0004 0x00000005 s = exec .fdecode s

/-- R151: FENCODE. LAYOUT_INVALID comes first, then the first failing field in index order, MISSING_FIELD before
VALUE_RANGE, and each error empties OBUF. With no failing field OBUF is the fields' bytes in order, a block from RIMG
and an integer from the low bits of RVAL. Nothing else but RESULT and STATUS changes, the record among it. CMD word 6
runs it. -/
def Obligations.FencodeOutcomes : Prop :=
  ∀ s : State,
    (∀ info, s.layoutCheck = .error info →
      exec .fencode s = .next { s with
        obuf := [], result := BitVec.ofNat 16 info, err := .layoutInvalid, hdrOk := false, csumOk := false }) ∧
    (∀ lay : Layout Nat, s.layoutCheck = .ok lay →
      ∀ i e, s.EncodeFails lay i e → (∀ j e', j < i → ¬ s.EncodeFails lay j e') →
        exec .fencode s = .next { s with
          obuf := [], result := BitVec.ofNat 16 i, err := e, hdrOk := false, csumOk := false }) ∧
    (∀ lay : Layout Nat, s.layoutCheck = .ok lay →
      (∀ i f, lay[i]? = some f → s.rpres.getLsbD i = true ∧ (f.kind.isBlock = false → s.WordInRange i f)) →
      ∃ t, exec .fencode s = .next t ∧
        t = { s with
          obuf := t.obuf, result := BitVec.ofNat 16 (totalSize lay), err := .ok, hdrOk := false, csumOk := false } ∧
        t.obuf.length = totalSize lay ∧
        ∀ i f, lay[i]? = some f → (t.obuf.drop (fieldOffset lay i)).take f.size =
          if f.kind.isBlock then (List.range f.size).map fun k => s.rimg.read (fieldOffset lay i + k)
          else pack (f.order.eff Config.nativeOrder) f.size ((s.rval.getD i 0).toNat % 2 ^ (8 * f.size))) ∧
    busWrite 0x0004 0x00000006 s = exec .fencode s

/-- R152: decoding an encoded record gives it back, at level 1 and at level 2; at level 2 FENCODE is followed by ICLR,
by IPUSH of each byte of OBUF and by FDECODE. -/
def Obligations.FieldRoundTrip : Prop :=
  (∀ (ν : Type) [DecidableEq ν] (native : ByteOrder) (lay : Layout ν) (R : Record ν),
    layoutAdmitted lay = true → lay.all (kindMatches R) = true →
    (∀ f ∈ lay, (R.get f.name).isSome = true) →
    (∀ f ∈ lay, ∀ v, R.get f.name = some (.int v) → inRange f.signed f.size v = true) →
    ∃ out R', fieldEncode native R lay = .ok out ∧ fieldDecode native lay out = .ok R' ∧
      (∀ f ∈ lay, R'.get f.name = R.get f.name) ∧ ∀ n, (∀ f ∈ lay, f.name ≠ n) → R'.get n = none) ∧
  ∀ (s t : State) (lay : Layout Nat), s.layoutCheck = .ok lay → exec .fencode s = .next t → t.err = .ok →
    ∃ u, execAll (.iclr :: (t.obuf.map .ipush ++ [.fdecode])) t = .next u ∧ u.err = .ok ∧ RecordsEqual lay s u ∧
      ∀ i, i < s.lcount.toNat → u.rpres.getLsbD i = true

/-- R153: encoding a decoded buffer gives back the bytes the layout covers, at level 1 and at level 2. -/
def Obligations.ByteExactReencode : Prop :=
  (∀ (ν : Type) [DecidableEq ν] (native : ByteOrder) (lay : Layout ν) (B : List Byte),
    layoutAdmitted lay = true → totalSize lay ≤ B.length →
    ∃ R, fieldDecode native lay B = .ok R ∧ fieldEncode native R lay = .ok (B.take (totalSize lay))) ∧
  ∀ (s : State) (lay : Layout Nat), s.layoutCheck = .ok lay → totalSize lay ≤ s.ibuf.length →
    ∃ t u, exec .fdecode s = .next t ∧ exec .fencode t = .next u ∧ u.err = .ok ∧
      u.obuf = s.ibuf.take (totalSize lay)

/-- FENCODE computes `field_encode` of the level-2 record under the level-1 layout (R3, R149, R151). -/
def Obligations.FencodeComputesFieldEncode : Prop :=
  ∀ (s : State) (lay : Layout Nat), s.layoutCheck = .ok lay →
    (∀ out, fieldEncode Config.nativeOrder (s.recordOf lay) lay = .ok out →
      exec .fencode s = .next { s with
        obuf := out, result := BitVec.ofNat 16 out.length, err := .ok, hdrOk := false, csumOk := false }) ∧
    (∀ e i, fieldEncode Config.nativeOrder (s.recordOf lay) lay = .err e i →
      exec .fencode s = .next { s with
        obuf := [], result := BitVec.ofNat 16 i, err := e, hdrOk := false, csumOk := false }) ∧
    fieldEncode Config.nativeOrder (s.recordOf lay) lay ≠ .refused

/-! ## Errors and the result channel -/

/-- R175: ILLEGAL, in each of its rows, sets ERR to ILLEGAL_OP and RESULT to the word's bits 15:0, clears HDR_OK and
CSUM_OK and changes nothing else. -/
def Obligations.IllegalReportsTheWord : Prop :=
  ∀ (s : State) (low : BitVec 3) (v : Word),
    exec .illegalZero s = .next { s with err := .illegalOp, hdrOk := false, csumOk := false, result := 0x0000 } ∧
    exec .illegalSeven s = .next { s with err := .illegalOp, hdrOk := false, csumOk := false, result := 0x0007 } ∧
    exec (.illegalHigh low) s = .next { s with
      err := .illegalOp, hdrOk := false, csumOk := false, result := BitVec.ofNat 16 (8 + low.toNat) } ∧
    exec (.illegalMbz v) s = .next { s with
      err := .illegalOp, hdrOk := false, csumOk := false, result := BitVec.ofNat 16 (v.toNat % 0x10000) } ∧
    (v.toNat = 0 ∨ 7 ≤ v.toNat → busWrite 0x0004 v s = .next { s with
      err := .illegalOp, hdrOk := false, csumOk := false, result := v.extractLsb' 0 16 })

/-- R173: what a command leaves does not depend on the result channel before it; IOVF is sticky, and only ICLR and reset
clear it. The second clause speaks of `pending`, and of reset as an event in it: the model's choice (log entries 1
and 4). -/
def Obligations.ResultChannelIsOverwritten : Prop :=
  (∀ (i : Instr) (s : State) (e : ErrCode) (h c : Bool) (r : Half), i.isCommand = true →
    exec i { s with err := e, hdrOk := h, csumOk := c, result := r } = exec i s) ∧
  ∀ s t : State, step s = .next t → s.iovf = true → t.iovf = false →
    (∃ a v rest, s.pending = .write a v :: rest ∧ locate a = .iclr) ∨ ∃ rest, s.pending = .reset :: rest

/-- R25, the writers of the STATUS flags: a command other than FPARSE writes 0 to HDR_OK and CSUM_OK; FVALID changes
only in FPARSE and at reset; IOVF changes only in IPUSH, ICLR and reset. The last two clauses speak of `pending`, and
of reset as an event in it: the model's choice (log entries 1 and 4). -/
def Obligations.StatusFlagWriters : Prop :=
  (∀ (i : Instr) (s t : State), exec i s = .next t → i.isCommand = true → i ≠ .fparse →
    t.hdrOk = false ∧ t.csumOk = false) ∧
  (∀ s t : State, step s = .next t → t.fvalid ≠ s.fvalid →
    (∃ a rest, s.pending = .write a 3 :: rest ∧ locate a = .cmd) ∨ ∃ rest, s.pending = .reset :: rest) ∧
  (∀ s t : State, step s = .next t → t.iovf ≠ s.iovf →
    (∃ a v rest, s.pending = .write a v :: rest ∧ (locate a = .ipush ∨ locate a = .iclr)) ∨
      ∃ rest, s.pending = .reset :: rest)

/-- R93, R197: each instruction answers a next state in which what its row of the table does not write is unchanged,
every byte of RIMG among it. -/
def Obligations.InstructionsWriteOnlyTheirState : Prop :=
  ∀ (i : Instr) (s : State), ∃ t, exec i s = .next t ∧
    t.vc = s.vc ∧ t.vh = s.vh ∧ t.hdrExp = s.hdrExp ∧ t.bhdr = s.bhdr ∧ t.baddr = s.baddr ∧ t.bcmd = s.bcmd ∧
    t.lcount = s.lcount ∧ t.layout = s.layout ∧ t.pending = s.pending ∧ t.answers = s.answers ∧
    (i.isCommand = true → t.ibuf = s.ibuf ∧ t.iovf = s.iovf) ∧
    (i.isCommand = false → t.err = s.err ∧ t.hdrOk = s.hdrOk ∧ t.csumOk = s.csumOk ∧ t.result = s.result) ∧
    (i ≠ .fbuild → i ≠ .fencode → t.obuf = s.obuf) ∧
    (i ≠ .fparse → t.fhdr = s.fhdr ∧ t.faddr = s.faddr ∧ t.fcmd = s.fcmd ∧ t.fsum = s.fsum ∧ t.fpay = s.fpay ∧
      t.fvalid = s.fvalid) ∧
    (i ≠ .fdecode → t.rval = s.rval ∧ t.rpres = s.rpres ∧ ∀ k, t.rimg.read k = s.rimg.read k)

/-- R155: no field-codec command reads or writes frame-codec state, and no frame-codec command reads or writes
field-codec state. -/
def Obligations.UnitsAreIndependent : Prop :=
  (∀ (i : Instr) (s f : State), i.isFieldCommand = true → ∃ t, exec i s = .next t ∧
    t.withFrameStateOf s = t ∧ exec i (s.withFrameStateOf f) = .next (t.withFrameStateOf f)) ∧
  (∀ (i : Instr) (s f : State), i.isFrameCommand = true → ∃ t, exec i s = .next t ∧
    t.withFieldStateOf s = t ∧ exec i (s.withFieldStateOf f) = .next (t.withFieldStateOf f))

/-! ## Reset and the whole machine -/

/-- R190: the reset value of every piece of the block's state, and the host's first sight of it: RESULT and STATUS read 0
and so does every byte of the four windows. -/
def Obligations.ResetStateValues : Prop :=
  State.reset.vc = false ∧ State.reset.vh = false ∧ State.reset.err = .ok ∧ State.reset.hdrOk = false ∧
  State.reset.csumOk = false ∧ State.reset.fvalid = false ∧ State.reset.iovf = false ∧ State.reset.result = 0 ∧
  State.reset.hdrExp = 0x57AB ∧ State.reset.bhdr = 0x57AB ∧ State.reset.baddr = 0 ∧ State.reset.bcmd = 0 ∧
  State.reset.ibuf = [] ∧ State.reset.obuf = [] ∧ State.reset.fhdr = 0 ∧ State.reset.faddr = 0 ∧
  State.reset.fcmd = 0 ∧ State.reset.fsum = 0 ∧ State.reset.fpay = [] ∧ State.reset.lcount = 0 ∧
  (∀ i : Fin 64, State.reset.layout.get i = 0 ∧ State.reset.rval.get i = 0) ∧ State.reset.rpres = 0 ∧
  (∀ k, State.reset.rimg.read k = 0) ∧
  State.reset.busRead 0x0008 = 0 ∧ State.reset.busRead 0x000C = 0 ∧
  ∀ i : Nat, State.reset.readLoc (.fpay i) = 0 ∧ State.reset.readLoc (.obuf i) = 0 ∧
    State.reset.readLoc (.ibuf i) = 0 ∧ State.reset.readLoc (.rimg i) = 0

/-- What the reset input leaves (R190), with the host's side of the bus kept; that reset is an event the host's list
holds is the model's choice (log entry 4). -/
def Obligations.ResetLeavesTheResetValues : Prop :=
  ∀ (s : State) (rest : List HostEvent), s.pending = .reset :: rest → ∃ t, step s = .next t ∧
    t.pending = rest ∧ t.answers = s.answers ∧
    t.vc = false ∧ t.vh = false ∧ t.err = .ok ∧ t.hdrOk = false ∧ t.csumOk = false ∧ t.fvalid = false ∧
    t.iovf = false ∧ t.result = 0 ∧ t.hdrExp = 0x57AB ∧ t.bhdr = 0x57AB ∧ t.baddr = 0 ∧ t.bcmd = 0 ∧
    t.ibuf = [] ∧ t.obuf = [] ∧ t.fhdr = 0 ∧ t.faddr = 0 ∧ t.fcmd = 0 ∧ t.fsum = 0 ∧ t.fpay = [] ∧
    t.lcount = 0 ∧ (∀ i : Fin 64, t.layout.get i = 0 ∧ t.rval.get i = 0) ∧ t.rpres = 0 ∧
    (∀ k, t.rimg.read k = 0) ∧ t = { State.reset with pending := rest, answers := s.answers }

/-- R192: what each command gives in the reset state. -/
def Obligations.CommandsFromReset : Prop :=
  exec .fprobe State.reset = .next State.reset ∧
  exec .fparse State.reset = .next { State.reset with err := .insufficientData } ∧
  exec .fbuild State.reset = .next { State.reset with obuf := [0x57, 0xAB, 0x00, 0x00, 0x00, 0x02], result := 6 } ∧
  exec .lsize State.reset = .next State.reset ∧
  exec .fdecode State.reset = .next State.reset ∧
  exec .fencode State.reset = .next State.reset

/-- The reset state meets the invariant. -/
def Obligations.ResetMeetsInvariant : Prop := State.reset.Inv

/-- Every step from a state that meets the invariant answers a next state that meets it: the buffers keep their limits,
RIMG its canonical form, and the frame registers are whole or clear (R32-R34, R39, R195). The canonical form and the
step over `pending` are the model's choice (log entries 1, 3, 4 and 9). -/
def Obligations.EveryStepKeepsInvariant : Prop := ∀ s : State, s.Inv → SafeStep s

/-- From every state a step answers a next state: no error, no address and no data stops the block (R61, R172, R174).
That a step with nothing pending answers too is the model's choice (log entry 3). -/
def Obligations.NothingStopsTheBlock : Prop := ∀ s : State, ∃ t, step s = .next t
end

