-- ==== Sys2Proof/Laws/Config.lean ====
section
/-! SUPPORT. The range of BUF_SIZE (00_scope.md R8), and the evaluable form of `n ≤ BUF_SIZE`. -/

namespace Sys2Proof.Laws

open Sys2Proof

theorem bufSize_ge : 261 ≤ Config.bufSize := by unfold Config.bufSize; omega

theorem bufSize_le : Config.bufSize ≤ 1024 := by unfold Config.bufSize; omega

theorem inBuf_iff {n : Nat} : Config.inBuf n = true ↔ n ≤ Config.bufSize := by
  have h1 := bufSize_ge
  have h2 := bufSize_le
  simp only [Config.inBuf, Bool.or_eq_true, Bool.and_eq_true, decide_eq_true_eq]
  unfold Config.bufSizeMin Config.bufSizeMax
  constructor
  · rintro (h | ⟨-, h⟩)
    · exact Nat.le_trans h h1
    · exact h
  · exact fun h => .inr ⟨Nat.le_trans h h2, h⟩

theorem inBuf_eq_false_iff {n : Nat} : Config.inBuf n = false ↔ Config.bufSize < n := by
  rw [← Bool.not_eq_true, inBuf_iff, Nat.not_le]

end Sys2Proof.Laws
end

