-- ==== Sys2Proof/Laws/Ops.lean ====
section
/-! SUPPORT. What the shared operations over bytes give: lengths, and the one outcome of `succeed` and `raise`. -/

namespace Sys2Proof.Laws

open Sys2Proof Sys2Proof.Machine

@[simp] theorem succeed_eq (h c : Bool) (n : Nat) (s : State) : succeed h c n s = .next (s.setChannel .ok h c n) := rfl

@[simp] theorem raise_eq (e : ErrCode) (h c : Bool) (n : Nat) (s : State) :
    raise e h c n s = .next (s.setChannel e h c n) := rfl

@[simp] theorem slice_length (B : List Byte) (i j : Nat) : (slice B i j).length = min (j - i) (B.length - i) := by
  simp [slice]

@[simp] theorem packLE_length (s u : Nat) : (packLE s u).length = s := by
  induction s generalizing u with
  | zero => rfl
  | succ s ih => simp [packLE, ih]

@[simp] theorem pack_length (o : ByteOrder) (s u : Nat) : (pack o s u).length = s := by
  cases o <;> simp [pack]

@[simp] theorem byteSum_nil : byteSum [] = 0 := rfl

@[simp] theorem byteSum_cons (b : Byte) (B : List Byte) : byteSum (b :: B) = b.toNat + byteSum B := by
  simp [byteSum]

@[simp] theorem byteSum_append (A B : List Byte) : byteSum (A ++ B) = byteSum A + byteSum B := by
  simp [byteSum]

/-- What `frame_build` gives for a payload of at most 255 bytes. -/
theorem frameBuild_of_le {h0 h1 a c : Byte} {P : List Byte} (h : P.length ≤ 255) :
    frameBuild h0 h1 a c P = some ([h0, h1, a, c, BitVec.ofNat 8 P.length] ++ P ++
      [checksum8 ([h0, h1, a, c, BitVec.ofNat 8 P.length] ++ P)]) :=
  if_pos h

/-- `frame_build` refuses a longer payload. -/
theorem frameBuild_of_gt {h0 h1 a c : Byte} {P : List Byte} (h : 255 < P.length) :
    frameBuild h0 h1 a c P = none :=
  if_neg (Nat.not_le.mpr h)

/-- A built frame is six bytes longer than its payload, and at most 261 bytes long. -/
theorem frameBuild_length {h0 h1 a c : Byte} {P F : List Byte} (h : frameBuild h0 h1 a c P = some F) :
    F.length = P.length + 6 ∧ F.length ≤ 261 := by
  unfold frameBuild Config.maxPayload at h
  split at h
  · have hF := Option.some.inj h
    subst hF
    simp only [List.length_append, List.length_cons, List.length_nil]
    omega
  · cases h

/-- A complete frame is as long as its length byte tells, and only such a list is one. -/
theorem frameComplete_iff {F : List Byte} : frameComplete F = true ↔ F.length = (byteAt F 4).toNat + 6 := by
  unfold frameComplete frameProbe Config.framePrefix
  by_cases h : F.length < 5
  · simp [h]; omega
  · simp [h]; omega

/-- The verifier's answer on a complete frame. -/
theorem csumOk_of_complete {F : List Byte} (h : frameComplete F = true) :
    csumOk F = some (checksum8 (slice F 0 (F.length - 1)) == byteAt F (F.length - 1)) :=
  if_pos h

/-- The verifier refuses every other list. -/
theorem csumOk_of_not_complete {F : List Byte} (h : ¬ frameComplete F = true) : csumOk F = none :=
  if_neg h

/-- The probe's answer: 0 below five bytes, else from 6 to 261. -/
theorem frameProbe_of_ge {B : List Byte} (h : 5 ≤ B.length) : frameProbe B = (byteAt B 4).toNat + 6 := by
  unfold frameProbe Config.framePrefix
  rw [if_neg (by omega)]
  omega

theorem frameProbe_of_lt {B : List Byte} (h : B.length < 5) : frameProbe B = 0 := if_pos h

/-- Every parse answers its need with the probe of the buffer (R120). -/
@[simp] theorem frameParse_need (vc vh : Bool) (E : Byte × Byte) (B : List Byte) :
    (frameParse vc vh E B).need = frameProbe B := by
  unfold frameParse
  dsimp only
  repeat' split
  all_goals rfl

/-- A frame that a parse accepts has at most 255 payload bytes, as many as its length byte says. -/
theorem frameParse_payload {vc vh : Bool} {E : Byte × Byte} {B : List Byte} {f : Frame} {L : Nat}
    (h : (frameParse vc vh E B).res = .ok f L) : f.payload.length = f.len.toNat ∧ f.payload.length ≤ 255 := by
  unfold frameParse Config.framePrefix at h
  dsimp only at h
  repeat' split at h
  all_goals first
    | cases h; done
    | (injection h with hf hL
       subst hf
       simp only [slice_length]
       have := (byteAt B 4).isLt
       omega)

end Sys2Proof.Laws
end

