-- ==== Sys2Proof/Laws/State.lean ====
section
/-! SUPPORT. One lemma for each field under each update of the state, so that no proof unfolds a record update. -/

namespace Sys2Proof.Laws

open Sys2Proof Sys2Proof.Machine

/-! ## `State.setChannel` -/

@[simp] theorem setChannel_vc (s : State) (e : ErrCode) (h c : Bool) (n : Nat) : (s.setChannel e h c n).vc = s.vc := rfl
@[simp] theorem setChannel_vh (s : State) (e : ErrCode) (h c : Bool) (n : Nat) : (s.setChannel e h c n).vh = s.vh := rfl
@[simp] theorem setChannel_err (s : State) (e : ErrCode) (h c : Bool) (n : Nat) : (s.setChannel e h c n).err = e := rfl
@[simp] theorem setChannel_hdrOk (s : State) (e : ErrCode) (h c : Bool) (n : Nat) : (s.setChannel e h c n).hdrOk = h := rfl
@[simp] theorem setChannel_csumOk (s : State) (e : ErrCode) (h c : Bool) (n : Nat) : (s.setChannel e h c n).csumOk = c := rfl
@[simp] theorem setChannel_fvalid (s : State) (e : ErrCode) (h c : Bool) (n : Nat) : (s.setChannel e h c n).fvalid = s.fvalid := rfl
@[simp] theorem setChannel_iovf (s : State) (e : ErrCode) (h c : Bool) (n : Nat) : (s.setChannel e h c n).iovf = s.iovf := rfl
@[simp] theorem setChannel_result (s : State) (e : ErrCode) (h c : Bool) (n : Nat) : (s.setChannel e h c n).result = BitVec.ofNat 16 n := rfl
@[simp] theorem setChannel_hdrExp (s : State) (e : ErrCode) (h c : Bool) (n : Nat) : (s.setChannel e h c n).hdrExp = s.hdrExp := rfl
@[simp] theorem setChannel_bhdr (s : State) (e : ErrCode) (h c : Bool) (n : Nat) : (s.setChannel e h c n).bhdr = s.bhdr := rfl
@[simp] theorem setChannel_baddr (s : State) (e : ErrCode) (h c : Bool) (n : Nat) : (s.setChannel e h c n).baddr = s.baddr := rfl
@[simp] theorem setChannel_bcmd (s : State) (e : ErrCode) (h c : Bool) (n : Nat) : (s.setChannel e h c n).bcmd = s.bcmd := rfl
@[simp] theorem setChannel_ibuf (s : State) (e : ErrCode) (h c : Bool) (n : Nat) : (s.setChannel e h c n).ibuf = s.ibuf := rfl
@[simp] theorem setChannel_obuf (s : State) (e : ErrCode) (h c : Bool) (n : Nat) : (s.setChannel e h c n).obuf = s.obuf := rfl
@[simp] theorem setChannel_fhdr (s : State) (e : ErrCode) (h c : Bool) (n : Nat) : (s.setChannel e h c n).fhdr = s.fhdr := rfl
@[simp] theorem setChannel_faddr (s : State) (e : ErrCode) (h c : Bool) (n : Nat) : (s.setChannel e h c n).faddr = s.faddr := rfl
@[simp] theorem setChannel_fcmd (s : State) (e : ErrCode) (h c : Bool) (n : Nat) : (s.setChannel e h c n).fcmd = s.fcmd := rfl
@[simp] theorem setChannel_fsum (s : State) (e : ErrCode) (h c : Bool) (n : Nat) : (s.setChannel e h c n).fsum = s.fsum := rfl
@[simp] theorem setChannel_fpay (s : State) (e : ErrCode) (h c : Bool) (n : Nat) : (s.setChannel e h c n).fpay = s.fpay := rfl
@[simp] theorem setChannel_lcount (s : State) (e : ErrCode) (h c : Bool) (n : Nat) : (s.setChannel e h c n).lcount = s.lcount := rfl
@[simp] theorem setChannel_layout (s : State) (e : ErrCode) (h c : Bool) (n : Nat) : (s.setChannel e h c n).layout = s.layout := rfl
@[simp] theorem setChannel_rval (s : State) (e : ErrCode) (h c : Bool) (n : Nat) : (s.setChannel e h c n).rval = s.rval := rfl
@[simp] theorem setChannel_rpres (s : State) (e : ErrCode) (h c : Bool) (n : Nat) : (s.setChannel e h c n).rpres = s.rpres := rfl
@[simp] theorem setChannel_rimg (s : State) (e : ErrCode) (h c : Bool) (n : Nat) : (s.setChannel e h c n).rimg = s.rimg := rfl
@[simp] theorem setChannel_pending (s : State) (e : ErrCode) (h c : Bool) (n : Nat) : (s.setChannel e h c n).pending = s.pending := rfl
@[simp] theorem setChannel_answers (s : State) (e : ErrCode) (h c : Bool) (n : Nat) : (s.setChannel e h c n).answers = s.answers := rfl

/-! ## `State.setOutput` -/

@[simp] theorem setOutput_vc (s : State) (bs : List Byte) : (s.setOutput bs).vc = s.vc := rfl
@[simp] theorem setOutput_vh (s : State) (bs : List Byte) : (s.setOutput bs).vh = s.vh := rfl
@[simp] theorem setOutput_err (s : State) (bs : List Byte) : (s.setOutput bs).err = s.err := rfl
@[simp] theorem setOutput_hdrOk (s : State) (bs : List Byte) : (s.setOutput bs).hdrOk = s.hdrOk := rfl
@[simp] theorem setOutput_csumOk (s : State) (bs : List Byte) : (s.setOutput bs).csumOk = s.csumOk := rfl
@[simp] theorem setOutput_fvalid (s : State) (bs : List Byte) : (s.setOutput bs).fvalid = s.fvalid := rfl
@[simp] theorem setOutput_iovf (s : State) (bs : List Byte) : (s.setOutput bs).iovf = s.iovf := rfl
@[simp] theorem setOutput_result (s : State) (bs : List Byte) : (s.setOutput bs).result = s.result := rfl
@[simp] theorem setOutput_hdrExp (s : State) (bs : List Byte) : (s.setOutput bs).hdrExp = s.hdrExp := rfl
@[simp] theorem setOutput_bhdr (s : State) (bs : List Byte) : (s.setOutput bs).bhdr = s.bhdr := rfl
@[simp] theorem setOutput_baddr (s : State) (bs : List Byte) : (s.setOutput bs).baddr = s.baddr := rfl
@[simp] theorem setOutput_bcmd (s : State) (bs : List Byte) : (s.setOutput bs).bcmd = s.bcmd := rfl
@[simp] theorem setOutput_ibuf (s : State) (bs : List Byte) : (s.setOutput bs).ibuf = s.ibuf := rfl
@[simp] theorem setOutput_obuf (s : State) (bs : List Byte) : (s.setOutput bs).obuf = bs := rfl
@[simp] theorem setOutput_fhdr (s : State) (bs : List Byte) : (s.setOutput bs).fhdr = s.fhdr := rfl
@[simp] theorem setOutput_faddr (s : State) (bs : List Byte) : (s.setOutput bs).faddr = s.faddr := rfl
@[simp] theorem setOutput_fcmd (s : State) (bs : List Byte) : (s.setOutput bs).fcmd = s.fcmd := rfl
@[simp] theorem setOutput_fsum (s : State) (bs : List Byte) : (s.setOutput bs).fsum = s.fsum := rfl
@[simp] theorem setOutput_fpay (s : State) (bs : List Byte) : (s.setOutput bs).fpay = s.fpay := rfl
@[simp] theorem setOutput_lcount (s : State) (bs : List Byte) : (s.setOutput bs).lcount = s.lcount := rfl
@[simp] theorem setOutput_layout (s : State) (bs : List Byte) : (s.setOutput bs).layout = s.layout := rfl
@[simp] theorem setOutput_rval (s : State) (bs : List Byte) : (s.setOutput bs).rval = s.rval := rfl
@[simp] theorem setOutput_rpres (s : State) (bs : List Byte) : (s.setOutput bs).rpres = s.rpres := rfl
@[simp] theorem setOutput_rimg (s : State) (bs : List Byte) : (s.setOutput bs).rimg = s.rimg := rfl
@[simp] theorem setOutput_pending (s : State) (bs : List Byte) : (s.setOutput bs).pending = s.pending := rfl
@[simp] theorem setOutput_answers (s : State) (bs : List Byte) : (s.setOutput bs).answers = s.answers := rfl

/-! ## `State.setFrame` -/

@[simp] theorem setFrame_vc (s : State) (f : Frame) : (s.setFrame f).vc = s.vc := rfl
@[simp] theorem setFrame_vh (s : State) (f : Frame) : (s.setFrame f).vh = s.vh := rfl
@[simp] theorem setFrame_err (s : State) (f : Frame) : (s.setFrame f).err = s.err := rfl
@[simp] theorem setFrame_hdrOk (s : State) (f : Frame) : (s.setFrame f).hdrOk = s.hdrOk := rfl
@[simp] theorem setFrame_csumOk (s : State) (f : Frame) : (s.setFrame f).csumOk = s.csumOk := rfl
@[simp] theorem setFrame_fvalid (s : State) (f : Frame) : (s.setFrame f).fvalid = true := rfl
@[simp] theorem setFrame_iovf (s : State) (f : Frame) : (s.setFrame f).iovf = s.iovf := rfl
@[simp] theorem setFrame_result (s : State) (f : Frame) : (s.setFrame f).result = s.result := rfl
@[simp] theorem setFrame_hdrExp (s : State) (f : Frame) : (s.setFrame f).hdrExp = s.hdrExp := rfl
@[simp] theorem setFrame_bhdr (s : State) (f : Frame) : (s.setFrame f).bhdr = s.bhdr := rfl
@[simp] theorem setFrame_baddr (s : State) (f : Frame) : (s.setFrame f).baddr = s.baddr := rfl
@[simp] theorem setFrame_bcmd (s : State) (f : Frame) : (s.setFrame f).bcmd = s.bcmd := rfl
@[simp] theorem setFrame_ibuf (s : State) (f : Frame) : (s.setFrame f).ibuf = s.ibuf := rfl
@[simp] theorem setFrame_obuf (s : State) (f : Frame) : (s.setFrame f).obuf = s.obuf := rfl
@[simp] theorem setFrame_fhdr (s : State) (f : Frame) : (s.setFrame f).fhdr = f.hdr0 ++ f.hdr1 := rfl
@[simp] theorem setFrame_faddr (s : State) (f : Frame) : (s.setFrame f).faddr = f.addr := rfl
@[simp] theorem setFrame_fcmd (s : State) (f : Frame) : (s.setFrame f).fcmd = f.cmd := rfl
@[simp] theorem setFrame_fsum (s : State) (f : Frame) : (s.setFrame f).fsum = f.sum := rfl
@[simp] theorem setFrame_fpay (s : State) (f : Frame) : (s.setFrame f).fpay = f.payload := rfl
@[simp] theorem setFrame_lcount (s : State) (f : Frame) : (s.setFrame f).lcount = s.lcount := rfl
@[simp] theorem setFrame_layout (s : State) (f : Frame) : (s.setFrame f).layout = s.layout := rfl
@[simp] theorem setFrame_rval (s : State) (f : Frame) : (s.setFrame f).rval = s.rval := rfl
@[simp] theorem setFrame_rpres (s : State) (f : Frame) : (s.setFrame f).rpres = s.rpres := rfl
@[simp] theorem setFrame_rimg (s : State) (f : Frame) : (s.setFrame f).rimg = s.rimg := rfl
@[simp] theorem setFrame_pending (s : State) (f : Frame) : (s.setFrame f).pending = s.pending := rfl
@[simp] theorem setFrame_answers (s : State) (f : Frame) : (s.setFrame f).answers = s.answers := rfl

/-! ## `State.clearFrame` -/

@[simp] theorem clearFrame_vc (s : State) : s.clearFrame.vc = s.vc := rfl
@[simp] theorem clearFrame_vh (s : State) : s.clearFrame.vh = s.vh := rfl
@[simp] theorem clearFrame_err (s : State) : s.clearFrame.err = s.err := rfl
@[simp] theorem clearFrame_hdrOk (s : State) : s.clearFrame.hdrOk = s.hdrOk := rfl
@[simp] theorem clearFrame_csumOk (s : State) : s.clearFrame.csumOk = s.csumOk := rfl
@[simp] theorem clearFrame_fvalid (s : State) : s.clearFrame.fvalid = false := rfl
@[simp] theorem clearFrame_iovf (s : State) : s.clearFrame.iovf = s.iovf := rfl
@[simp] theorem clearFrame_result (s : State) : s.clearFrame.result = s.result := rfl
@[simp] theorem clearFrame_hdrExp (s : State) : s.clearFrame.hdrExp = s.hdrExp := rfl
@[simp] theorem clearFrame_bhdr (s : State) : s.clearFrame.bhdr = s.bhdr := rfl
@[simp] theorem clearFrame_baddr (s : State) : s.clearFrame.baddr = s.baddr := rfl
@[simp] theorem clearFrame_bcmd (s : State) : s.clearFrame.bcmd = s.bcmd := rfl
@[simp] theorem clearFrame_ibuf (s : State) : s.clearFrame.ibuf = s.ibuf := rfl
@[simp] theorem clearFrame_obuf (s : State) : s.clearFrame.obuf = s.obuf := rfl
@[simp] theorem clearFrame_fhdr (s : State) : s.clearFrame.fhdr = 0 := rfl
@[simp] theorem clearFrame_faddr (s : State) : s.clearFrame.faddr = 0 := rfl
@[simp] theorem clearFrame_fcmd (s : State) : s.clearFrame.fcmd = 0 := rfl
@[simp] theorem clearFrame_fsum (s : State) : s.clearFrame.fsum = 0 := rfl
@[simp] theorem clearFrame_fpay (s : State) : s.clearFrame.fpay = [] := rfl
@[simp] theorem clearFrame_lcount (s : State) : s.clearFrame.lcount = s.lcount := rfl
@[simp] theorem clearFrame_layout (s : State) : s.clearFrame.layout = s.layout := rfl
@[simp] theorem clearFrame_rval (s : State) : s.clearFrame.rval = s.rval := rfl
@[simp] theorem clearFrame_rpres (s : State) : s.clearFrame.rpres = s.rpres := rfl
@[simp] theorem clearFrame_rimg (s : State) : s.clearFrame.rimg = s.rimg := rfl
@[simp] theorem clearFrame_pending (s : State) : s.clearFrame.pending = s.pending := rfl
@[simp] theorem clearFrame_answers (s : State) : s.clearFrame.answers = s.answers := rfl

/-! ## `State.setRecord` -/

@[simp] theorem setRecord_vc (s : State) (v : Vector Word 64) (m : Memory) (p : BitVec 64) : (s.setRecord v m p).vc = s.vc := rfl
@[simp] theorem setRecord_vh (s : State) (v : Vector Word 64) (m : Memory) (p : BitVec 64) : (s.setRecord v m p).vh = s.vh := rfl
@[simp] theorem setRecord_err (s : State) (v : Vector Word 64) (m : Memory) (p : BitVec 64) : (s.setRecord v m p).err = s.err := rfl
@[simp] theorem setRecord_hdrOk (s : State) (v : Vector Word 64) (m : Memory) (p : BitVec 64) : (s.setRecord v m p).hdrOk = s.hdrOk := rfl
@[simp] theorem setRecord_csumOk (s : State) (v : Vector Word 64) (m : Memory) (p : BitVec 64) : (s.setRecord v m p).csumOk = s.csumOk := rfl
@[simp] theorem setRecord_fvalid (s : State) (v : Vector Word 64) (m : Memory) (p : BitVec 64) : (s.setRecord v m p).fvalid = s.fvalid := rfl
@[simp] theorem setRecord_iovf (s : State) (v : Vector Word 64) (m : Memory) (p : BitVec 64) : (s.setRecord v m p).iovf = s.iovf := rfl
@[simp] theorem setRecord_result (s : State) (v : Vector Word 64) (m : Memory) (p : BitVec 64) : (s.setRecord v m p).result = s.result := rfl
@[simp] theorem setRecord_hdrExp (s : State) (v : Vector Word 64) (m : Memory) (p : BitVec 64) : (s.setRecord v m p).hdrExp = s.hdrExp := rfl
@[simp] theorem setRecord_bhdr (s : State) (v : Vector Word 64) (m : Memory) (p : BitVec 64) : (s.setRecord v m p).bhdr = s.bhdr := rfl
@[simp] theorem setRecord_baddr (s : State) (v : Vector Word 64) (m : Memory) (p : BitVec 64) : (s.setRecord v m p).baddr = s.baddr := rfl
@[simp] theorem setRecord_bcmd (s : State) (v : Vector Word 64) (m : Memory) (p : BitVec 64) : (s.setRecord v m p).bcmd = s.bcmd := rfl
@[simp] theorem setRecord_ibuf (s : State) (v : Vector Word 64) (m : Memory) (p : BitVec 64) : (s.setRecord v m p).ibuf = s.ibuf := rfl
@[simp] theorem setRecord_obuf (s : State) (v : Vector Word 64) (m : Memory) (p : BitVec 64) : (s.setRecord v m p).obuf = s.obuf := rfl
@[simp] theorem setRecord_fhdr (s : State) (v : Vector Word 64) (m : Memory) (p : BitVec 64) : (s.setRecord v m p).fhdr = s.fhdr := rfl
@[simp] theorem setRecord_faddr (s : State) (v : Vector Word 64) (m : Memory) (p : BitVec 64) : (s.setRecord v m p).faddr = s.faddr := rfl
@[simp] theorem setRecord_fcmd (s : State) (v : Vector Word 64) (m : Memory) (p : BitVec 64) : (s.setRecord v m p).fcmd = s.fcmd := rfl
@[simp] theorem setRecord_fsum (s : State) (v : Vector Word 64) (m : Memory) (p : BitVec 64) : (s.setRecord v m p).fsum = s.fsum := rfl
@[simp] theorem setRecord_fpay (s : State) (v : Vector Word 64) (m : Memory) (p : BitVec 64) : (s.setRecord v m p).fpay = s.fpay := rfl
@[simp] theorem setRecord_lcount (s : State) (v : Vector Word 64) (m : Memory) (p : BitVec 64) : (s.setRecord v m p).lcount = s.lcount := rfl
@[simp] theorem setRecord_layout (s : State) (v : Vector Word 64) (m : Memory) (p : BitVec 64) : (s.setRecord v m p).layout = s.layout := rfl
@[simp] theorem setRecord_rval (s : State) (v : Vector Word 64) (m : Memory) (p : BitVec 64) : (s.setRecord v m p).rval = v := rfl
@[simp] theorem setRecord_rpres (s : State) (v : Vector Word 64) (m : Memory) (p : BitVec 64) : (s.setRecord v m p).rpres = p := rfl
@[simp] theorem setRecord_rimg (s : State) (v : Vector Word 64) (m : Memory) (p : BitVec 64) : (s.setRecord v m p).rimg = m := rfl
@[simp] theorem setRecord_pending (s : State) (v : Vector Word 64) (m : Memory) (p : BitVec 64) : (s.setRecord v m p).pending = s.pending := rfl
@[simp] theorem setRecord_answers (s : State) (v : Vector Word 64) (m : Memory) (p : BitVec 64) : (s.setRecord v m p).answers = s.answers := rfl

/-! ## `State.clearRecord` -/

@[simp] theorem clearRecord_vc (s : State) : s.clearRecord.vc = s.vc := rfl
@[simp] theorem clearRecord_vh (s : State) : s.clearRecord.vh = s.vh := rfl
@[simp] theorem clearRecord_err (s : State) : s.clearRecord.err = s.err := rfl
@[simp] theorem clearRecord_hdrOk (s : State) : s.clearRecord.hdrOk = s.hdrOk := rfl
@[simp] theorem clearRecord_csumOk (s : State) : s.clearRecord.csumOk = s.csumOk := rfl
@[simp] theorem clearRecord_fvalid (s : State) : s.clearRecord.fvalid = s.fvalid := rfl
@[simp] theorem clearRecord_iovf (s : State) : s.clearRecord.iovf = s.iovf := rfl
@[simp] theorem clearRecord_result (s : State) : s.clearRecord.result = s.result := rfl
@[simp] theorem clearRecord_hdrExp (s : State) : s.clearRecord.hdrExp = s.hdrExp := rfl
@[simp] theorem clearRecord_bhdr (s : State) : s.clearRecord.bhdr = s.bhdr := rfl
@[simp] theorem clearRecord_baddr (s : State) : s.clearRecord.baddr = s.baddr := rfl
@[simp] theorem clearRecord_bcmd (s : State) : s.clearRecord.bcmd = s.bcmd := rfl
@[simp] theorem clearRecord_ibuf (s : State) : s.clearRecord.ibuf = s.ibuf := rfl
@[simp] theorem clearRecord_obuf (s : State) : s.clearRecord.obuf = s.obuf := rfl
@[simp] theorem clearRecord_fhdr (s : State) : s.clearRecord.fhdr = s.fhdr := rfl
@[simp] theorem clearRecord_faddr (s : State) : s.clearRecord.faddr = s.faddr := rfl
@[simp] theorem clearRecord_fcmd (s : State) : s.clearRecord.fcmd = s.fcmd := rfl
@[simp] theorem clearRecord_fsum (s : State) : s.clearRecord.fsum = s.fsum := rfl
@[simp] theorem clearRecord_fpay (s : State) : s.clearRecord.fpay = s.fpay := rfl
@[simp] theorem clearRecord_lcount (s : State) : s.clearRecord.lcount = s.lcount := rfl
@[simp] theorem clearRecord_layout (s : State) : s.clearRecord.layout = s.layout := rfl
@[simp] theorem clearRecord_rval (s : State) : s.clearRecord.rval = Vector.replicate 64 0 := rfl
@[simp] theorem clearRecord_rpres (s : State) : s.clearRecord.rpres = 0 := rfl
@[simp] theorem clearRecord_rimg (s : State) : s.clearRecord.rimg = [] := rfl
@[simp] theorem clearRecord_pending (s : State) : s.clearRecord.pending = s.pending := rfl
@[simp] theorem clearRecord_answers (s : State) : s.clearRecord.answers = s.answers := rfl

/-! ## `State.setInput` -/

@[simp] theorem setInput_vc (s : State) (bs : List Byte) (o : Bool) : (s.setInput bs o).vc = s.vc := rfl
@[simp] theorem setInput_vh (s : State) (bs : List Byte) (o : Bool) : (s.setInput bs o).vh = s.vh := rfl
@[simp] theorem setInput_err (s : State) (bs : List Byte) (o : Bool) : (s.setInput bs o).err = s.err := rfl
@[simp] theorem setInput_hdrOk (s : State) (bs : List Byte) (o : Bool) : (s.setInput bs o).hdrOk = s.hdrOk := rfl
@[simp] theorem setInput_csumOk (s : State) (bs : List Byte) (o : Bool) : (s.setInput bs o).csumOk = s.csumOk := rfl
@[simp] theorem setInput_fvalid (s : State) (bs : List Byte) (o : Bool) : (s.setInput bs o).fvalid = s.fvalid := rfl
@[simp] theorem setInput_iovf (s : State) (bs : List Byte) (o : Bool) : (s.setInput bs o).iovf = o := rfl
@[simp] theorem setInput_result (s : State) (bs : List Byte) (o : Bool) : (s.setInput bs o).result = s.result := rfl
@[simp] theorem setInput_hdrExp (s : State) (bs : List Byte) (o : Bool) : (s.setInput bs o).hdrExp = s.hdrExp := rfl
@[simp] theorem setInput_bhdr (s : State) (bs : List Byte) (o : Bool) : (s.setInput bs o).bhdr = s.bhdr := rfl
@[simp] theorem setInput_baddr (s : State) (bs : List Byte) (o : Bool) : (s.setInput bs o).baddr = s.baddr := rfl
@[simp] theorem setInput_bcmd (s : State) (bs : List Byte) (o : Bool) : (s.setInput bs o).bcmd = s.bcmd := rfl
@[simp] theorem setInput_ibuf (s : State) (bs : List Byte) (o : Bool) : (s.setInput bs o).ibuf = bs := rfl
@[simp] theorem setInput_obuf (s : State) (bs : List Byte) (o : Bool) : (s.setInput bs o).obuf = s.obuf := rfl
@[simp] theorem setInput_fhdr (s : State) (bs : List Byte) (o : Bool) : (s.setInput bs o).fhdr = s.fhdr := rfl
@[simp] theorem setInput_faddr (s : State) (bs : List Byte) (o : Bool) : (s.setInput bs o).faddr = s.faddr := rfl
@[simp] theorem setInput_fcmd (s : State) (bs : List Byte) (o : Bool) : (s.setInput bs o).fcmd = s.fcmd := rfl
@[simp] theorem setInput_fsum (s : State) (bs : List Byte) (o : Bool) : (s.setInput bs o).fsum = s.fsum := rfl
@[simp] theorem setInput_fpay (s : State) (bs : List Byte) (o : Bool) : (s.setInput bs o).fpay = s.fpay := rfl
@[simp] theorem setInput_lcount (s : State) (bs : List Byte) (o : Bool) : (s.setInput bs o).lcount = s.lcount := rfl
@[simp] theorem setInput_layout (s : State) (bs : List Byte) (o : Bool) : (s.setInput bs o).layout = s.layout := rfl
@[simp] theorem setInput_rval (s : State) (bs : List Byte) (o : Bool) : (s.setInput bs o).rval = s.rval := rfl
@[simp] theorem setInput_rpres (s : State) (bs : List Byte) (o : Bool) : (s.setInput bs o).rpres = s.rpres := rfl
@[simp] theorem setInput_rimg (s : State) (bs : List Byte) (o : Bool) : (s.setInput bs o).rimg = s.rimg := rfl
@[simp] theorem setInput_pending (s : State) (bs : List Byte) (o : Bool) : (s.setInput bs o).pending = s.pending := rfl
@[simp] theorem setInput_answers (s : State) (bs : List Byte) (o : Bool) : (s.setInput bs o).answers = s.answers := rfl

/-! ## What the operands of a field-codec command read -/

@[simp] theorem setRecord_descriptors (s : State) (v : Vector Word 64) (m : Memory) (p : BitVec 64) :
    (s.setRecord v m p).descriptors = s.descriptors := rfl

@[simp] theorem setRecord_layoutCheck (s : State) (v : Vector Word 64) (m : Memory) (p : BitVec 64) :
    (s.setRecord v m p).layoutCheck = s.layoutCheck := rfl

@[simp] theorem setChannel_layoutCheck (s : State) (e : ErrCode) (h c : Bool) (n : Nat) :
    (s.setChannel e h c n).layoutCheck = s.layoutCheck := rfl

@[simp] theorem setOutput_layoutCheck (s : State) (bs : List Byte) :
    (s.setOutput bs).layoutCheck = s.layoutCheck := rfl

@[simp] theorem setInput_layoutCheck (s : State) (bs : List Byte) (o : Bool) :
    (s.setInput bs o).layoutCheck = s.layoutCheck := rfl

end Sys2Proof.Laws
end

