-- ==== Sys2Proof/Laws/Layout.lean ====
section
/-! SUPPORT. What the layout check answers: the fields of the descriptors, one for each, with a total size of at most
BUF_SIZE (41_field_codec.md R141). -/

namespace Sys2Proof.Laws

open Sys2Proof Sys2Proof.Machine

@[simp] theorem totalSize_nil {ν : Type} : totalSize ([] : Layout ν) = 0 := rfl

@[simp] theorem totalSize_cons {ν : Type} (f : LayoutField ν) (lay : Layout ν) :
    totalSize (f :: lay) = f.size + totalSize lay := by
  simp [totalSize]

/-- A descriptor's field has the descriptor's kind, its index as its name and its SIGNED bit. -/
theorem descField_eq_some {i : Nat} {d : Word} {f : LayoutField Nat} (h : descField i d = some f) :
    descValid d = true ∧ f.name = i ∧ f.kind = descKind d ∧ descOrder d = some f.order ∧ f.signed = descSigned d := by
  unfold descField at h
  split at h
  · rename_i hv
    split at h
    · rename_i o ho
      have hf := Option.some.inj h
      subst hf
      exact ⟨hv, rfl, rfl, ho, rfl⟩
    · cases h
  · cases h

theorem layoutScan_cons_ok {i off : Nat} {d : Word} {ds : List Word} {lay : Layout Nat}
    (h : layoutScan i off (d :: ds) = .ok lay) :
    ∃ f fs, lay = f :: fs ∧ descField i d = some f ∧ off + f.size ≤ Config.bufSize ∧
      layoutScan (i + 1) (off + f.size) ds = .ok fs := by
  simp only [layoutScan] at h
  split at h
  · cases h
  · rename_i f hf
    split at h
    · rename_i hb
      split at h
      · rename_i fs hfs
        injection h with hl
        exact ⟨f, fs, hl.symm, hf, inBuf_iff.mp hb, hfs⟩
      · cases h
    · cases h

/-- A scan that succeeds gives one field for each descriptor, each under its own index. -/
theorem layoutScan_ok {ds : List Word} {i off : Nat} {lay : Layout Nat} (h : layoutScan i off ds = .ok lay)
    (hoff : off ≤ Config.bufSize) :
    lay.length = ds.length ∧ off + totalSize lay ≤ Config.bufSize ∧
      ∀ k, lay[k]? = (ds[k]?).bind (descField (i + k)) := by
  induction ds generalizing i off lay with
  | nil =>
    injection h with hl
    subst hl
    exact ⟨rfl, hoff, fun k => by simp⟩
  | cons d ds ih =>
    obtain ⟨f, fs, rfl, hf, hb, hfs⟩ := layoutScan_cons_ok h
    obtain ⟨h1, h2, h3⟩ := ih hfs hb
    refine ⟨by simp [h1], by simp only [totalSize_cons]; omega, fun k => ?_⟩
    cases k with
    | zero => simp [hf]
    | succ k =>
      have := h3 k
      simpa [Nat.add_assoc, Nat.add_comm 1 k] using this

@[simp] theorem descriptors_length (s : State) : s.descriptors.length = min s.lcount.toNat 64 := by
  simp [State.descriptors]

/-- A layout check that succeeds: at most 64 fields, LCOUNT of them, each the field of its descriptor, and a total size
of at most BUF_SIZE. -/
theorem layoutCheck_ok {s : State} {lay : Layout Nat} (h : s.layoutCheck = .ok lay) :
    s.lcount.toNat ≤ 64 ∧ lay.length = s.lcount.toNat ∧ totalSize lay ≤ Config.bufSize ∧
      ∀ k, lay[k]? = (s.descriptors[k]?).bind (descField k) := by
  unfold State.layoutCheck Config.maxFields at h
  split at h
  · cases h
  · rename_i hle
    obtain ⟨h1, h2, h3⟩ := layoutScan_ok h (Nat.zero_le _)
    rw [descriptors_length] at h1
    refine ⟨by omega, by omega, by omega, fun k => ?_⟩
    simpa using h3 k

/-- A field of a checked layout has its index as its name. -/
theorem layoutCheck_name {s : State} {lay : Layout Nat} (h : s.layoutCheck = .ok lay) {i : Nat} {f : LayoutField Nat}
    (hi : lay[i]? = some f) : f.name = i := by
  rw [(layoutCheck_ok h).2.2.2 i] at hi
  obtain ⟨d, -, hd⟩ := Option.bind_eq_some_iff.mp hi
  exact (descField_eq_some hd).2.1

/-- The field of a descriptor is no signed block. -/
theorem descField_admitted {i : Nat} {d : Word} {f : LayoutField Nat} (h : descField i d = some f) :
    f.admitted = true := by
  obtain ⟨hv, -, hk, -, hs⟩ := descField_eq_some h
  rw [LayoutField.admitted, hk, hs]
  unfold descValid at hv
  unfold descKind descSigned
  by_cases h3 : d.extractLsb' 0 2 = 3
  · simp_all
  · have hd : d.extractLsb' 0 2 = 0 ∨ d.extractLsb' 0 2 = 1 ∨ d.extractLsb' 0 2 = 2 := by
      revert h3; generalize d.extractLsb' 0 2 = k; revert k; decide
    rcases hd with hd | hd | hd <;> simp [hd, Kind.isBlock]

/-- A checked layout is in the signature of the level-1 functions, so no level-2 command meets a refusal (R140). -/
theorem layoutCheck_admitted {s : State} {lay : Layout Nat} (h : s.layoutCheck = .ok lay) :
    layoutAdmitted lay = true := by
  have hname : lay.map LayoutField.name = List.range lay.length := by
    refine List.ext_getElem (by simp) fun i h1 _ => ?_
    rw [List.getElem_map, List.getElem_range]
    exact layoutCheck_name h (List.getElem?_eq_getElem (by simpa using h1))
  unfold layoutAdmitted namesDistinct
  rw [hname, Bool.and_eq_true, decide_eq_true_eq, List.all_eq_true]
  refine ⟨List.nodup_range, fun f hf => ?_⟩
  obtain ⟨i, hi, rfl⟩ := List.mem_iff_getElem.mp hf
  have hget := (layoutCheck_ok h).2.2.2 i
  rw [List.getElem?_eq_getElem hi] at hget
  obtain ⟨d, -, hd⟩ := Option.bind_eq_some_iff.mp hget.symm
  exact descField_admitted hd

/-- `layout_size` of a checked layout is its total size. -/
theorem layoutCheck_layoutSize {s : State} {lay : Layout Nat} (h : s.layoutCheck = .ok lay) :
    layoutSize lay = some (totalSize lay) :=
  if_pos (layoutCheck_admitted h)

@[simp] theorem encodedField_length (native : ByteOrder) (lay : Layout Nat) (s : State) (i : Nat) (f : LayoutField Nat) :
    (s.encodedField native lay i f).length = f.size := by
  unfold State.encodedField
  split <;> simp [Memory.readBytes]

/-- The bytes FENCODE emits are as many as the layout's total size. -/
theorem encoded_length (g : Nat → LayoutField Nat → List Byte) (lay : Layout Nat) (h : ∀ i f, (g i f).length = f.size) :
    (lay.mapIdx g).flatten.length = totalSize lay := by
  induction lay generalizing g with
  | nil => rfl
  | cons f fs ih =>
    have := ih (fun i => g (i + 1)) (fun i f => h (i + 1) f)
    simp only [List.mapIdx_cons, List.flatten_cons, List.length_append, h, totalSize_cons]
    rw [this]

end Sys2Proof.Laws
end

