-- ==== Sys2Proof/Laws/Memory.lean ====
section
/-! SUPPORT. The record image's byte storage: every operation keeps the canonical form, a read after a write gives the
byte written at its index and the old byte everywhere else, and equal contents are equal data. -/

namespace Sys2Proof.Laws

open Sys2Proof Sys2Proof.Machine

@[simp] theorem read_nil (i : Nat) : Memory.read [] i = 0 := rfl

theorem wfFrom_mono {lo lo' : Nat} {m : Memory} (hle : lo' ≤ lo) (h : m.wfFrom lo = true) : m.wfFrom lo' = true := by
  cases m with
  | nil => rfl
  | cons c rest =>
    simp only [Memory.wfFrom, Bool.and_eq_true, decide_eq_true_eq] at h ⊢
    exact ⟨⟨by omega, h.1.2⟩, h.2⟩

theorem wfFrom_cons {lo i : Nat} {b : Byte} {m : Memory} (hlo : lo ≤ i) (h : m.wfFrom (i + 1) = true) :
    (Memory.cons i b m).wfFrom lo = true := by
  unfold Memory.cons
  split
  · exact wfFrom_mono (by omega) h
  · rename_i hb
    simp only [Memory.wfFrom, Bool.and_eq_true, decide_eq_true_eq, bne_iff_ne]
    exact ⟨⟨hlo, hb⟩, h⟩

theorem wfFrom_write {m : Memory} {lo i : Nat} {b : Byte} (hlo : lo ≤ i) (h : m.wfFrom lo = true) :
    (m.write i b).wfFrom lo = true := by
  induction m generalizing lo with
  | nil => exact wfFrom_cons hlo rfl
  | cons c rest ih =>
    obtain ⟨k, d⟩ := c
    simp only [Memory.wfFrom, Bool.and_eq_true, decide_eq_true_eq] at h
    simp only [Memory.write]
    split
    · refine wfFrom_cons hlo ?_
      simp only [Memory.wfFrom, Bool.and_eq_true, decide_eq_true_eq]
      exact ⟨⟨by omega, h.1.2⟩, h.2⟩
    · split
      · rename_i hik
        subst hik
        exact wfFrom_cons hlo h.2
      · simp only [Memory.wfFrom, Bool.and_eq_true, decide_eq_true_eq]
        exact ⟨h.1, ih (by omega) h.2⟩

/-- A write keeps the canonical form. -/
theorem wf_write {m : Memory} {i : Nat} {b : Byte} (h : m.wf = true) : (m.write i b).wf = true :=
  wfFrom_write (Nat.zero_le i) h

theorem wfFrom_ofBytes (bs : List Byte) (i : Nat) : (Memory.ofBytes i bs).wfFrom i = true := by
  induction bs generalizing i with
  | nil => rfl
  | cons b bs ih => exact wfFrom_cons (Nat.le_refl i) (ih (i + 1))

/-- Storage made from bytes is in canonical form. -/
theorem wf_ofBytes (i : Nat) (bs : List Byte) : (Memory.ofBytes i bs).wf = true :=
  wfFrom_mono (Nat.zero_le i) (wfFrom_ofBytes bs i)

theorem read_of_lt {m : Memory} {lo i : Nat} (h : m.wfFrom lo = true) (hi : i < lo) : m.read i = 0 := by
  induction m generalizing lo with
  | nil => rfl
  | cons c rest ih =>
    obtain ⟨k, d⟩ := c
    simp only [Memory.wfFrom, Bool.and_eq_true, decide_eq_true_eq] at h
    simp only [Memory.read]
    rw [if_neg (by omega)]
    exact ih h.2 (by omega)

theorem read_cons {m : Memory} {i j : Nat} {b : Byte} (h : m.wfFrom (i + 1) = true) :
    (Memory.cons i b m).read j = if j = i then b else m.read j := by
  unfold Memory.cons
  split
  · rename_i hb
    subst hb
    split
    · rename_i hj
      subst hj
      exact read_of_lt h (Nat.lt_succ_self j)
    · rfl
  · simp [Memory.read, eq_comm]

theorem read_write_from {m : Memory} {lo i j : Nat} {b : Byte} (h : m.wfFrom lo = true) :
    (m.write i b).read j = if j = i then b else m.read j := by
  induction m generalizing lo with
  | nil => exact read_cons rfl
  | cons c rest ih =>
    obtain ⟨k, d⟩ := c
    have h' := h
    simp only [Memory.wfFrom, Bool.and_eq_true, decide_eq_true_eq] at h
    simp only [Memory.write]
    split
    · refine read_cons ?_
      simp only [Memory.wfFrom, Bool.and_eq_true, decide_eq_true_eq]
      exact ⟨⟨by omega, h.1.2⟩, h.2⟩
    · split
      · rename_i hik
        subst hik
        rw [read_cons h.2]
        simp only [Memory.read]
        split
        · rfl
        · rw [if_neg (by omega)]
      · simp only [Memory.read, ih h.2]
        split
        · rw [if_neg (by omega)]
        · rfl

/-- A read after a write gives the byte written at its index and the old byte everywhere else. -/
theorem read_write {m : Memory} (h : m.wf = true) (i j : Nat) (b : Byte) :
    (m.write i b).read j = if j = i then b else m.read j :=
  read_write_from h

/-- Storage made from bytes reads those bytes from its first index up, and 0 elsewhere. -/
theorem read_ofBytes (bs : List Byte) (i j : Nat) :
    (Memory.ofBytes i bs).read j = if i ≤ j then bs.getD (j - i) 0 else 0 := by
  induction bs generalizing i with
  | nil => simp [Memory.ofBytes]
  | cons b bs ih =>
    rw [Memory.ofBytes, read_cons (wfFrom_ofBytes bs (i + 1)), ih]
    by_cases hj : j = i
    · subst hj; simp
    · by_cases hle : i ≤ j
      · obtain ⟨d, rfl⟩ : ∃ d, j = i + 1 + d := ⟨j - (i + 1), by omega⟩
        have e1 : i + 1 + d - i = d + 1 := by omega
        have e2 : i + 1 + d - (i + 1) = d := by omega
        simp [hj, hle, e1, e2]
      · rw [if_neg hj, if_neg (by omega), if_neg hle]

theorem below_cons {n i : Nat} {b : Byte} {m : Memory} (hi : i < n) (h : m.below n = true) :
    (Memory.cons i b m).below n = true := by
  unfold Memory.cons
  split
  · exact h
  · simp only [Memory.below, List.all_cons, Bool.and_eq_true, decide_eq_true_eq] at h ⊢
    exact ⟨hi, h⟩

/-- A write below a bound keeps every listed index below it. -/
theorem below_write {n i : Nat} {b : Byte} {m : Memory} (hi : i < n) (h : m.below n = true) :
    (m.write i b).below n = true := by
  induction m with
  | nil => exact below_cons hi rfl
  | cons c rest ih =>
    obtain ⟨k, d⟩ := c
    have h' := h
    simp only [Memory.below, List.all_cons, Bool.and_eq_true, decide_eq_true_eq] at h
    simp only [Memory.write]
    split
    · exact below_cons hi h'
    · split
      · exact below_cons hi h.2
      · have := ih h.2
        simp only [Memory.below, List.all_cons, Bool.and_eq_true, decide_eq_true_eq] at this ⊢
        exact ⟨h.1, this⟩

/-- Storage made from bytes lists no index past the last byte. -/
theorem below_ofBytes {n : Nat} (bs : List Byte) (i : Nat) (h : i + bs.length ≤ n) :
    (Memory.ofBytes i bs).below n = true := by
  induction bs generalizing i with
  | nil => rfl
  | cons b bs ih =>
    simp only [List.length_cons] at h
    exact below_cons (by omega) (ih (i + 1) (by omega))

@[simp] theorem readBytes_length (m : Memory) (off n : Nat) : (m.readBytes off n).length = n := by
  simp [Memory.readBytes]

theorem wfFrom_ext {m m' : Memory} {lo : Nat} (h : m.wfFrom lo = true) (h' : m'.wfFrom lo = true)
    (heq : ∀ i, m.read i = m'.read i) : m = m' := by
  induction m generalizing lo m' with
  | nil =>
    cases m' with
    | nil => rfl
    | cons c rest =>
      obtain ⟨k, d⟩ := c
      simp only [Memory.wfFrom, Bool.and_eq_true, decide_eq_true_eq, bne_iff_ne] at h'
      have := heq k
      simp only [Memory.read, if_true] at this
      exact absurd this.symm h'.1.2
  | cons c rest ih =>
    obtain ⟨k, d⟩ := c
    have hw := h
    simp only [Memory.wfFrom, Bool.and_eq_true, decide_eq_true_eq, bne_iff_ne] at h
    cases m' with
    | nil =>
      have := heq k
      simp only [Memory.read, if_true] at this
      exact absurd this h.1.2
    | cons c' rest' =>
      obtain ⟨k', d'⟩ := c'
      have hw' := h'
      simp only [Memory.wfFrom, Bool.and_eq_true, decide_eq_true_eq, bne_iff_ne] at h'
      have hk : k = k' := by
        rcases Nat.lt_trichotomy k k' with hlt | he | hgt
        · have := heq k
          rw [Memory.read, if_pos rfl, Memory.read, if_neg (by omega), read_of_lt h'.2 (by omega)] at this
          exact absurd this h.1.2
        · exact he
        · have := heq k'
          rw [Memory.read, if_neg (by omega), Memory.read, if_pos rfl, read_of_lt h.2 (by omega)] at this
          exact absurd this.symm h'.1.2
      subst hk
      have hd : d = d' := by simpa [Memory.read] using heq k
      subst hd
      have htail : rest = rest' := by
        refine ih h.2 h'.2 fun i => ?_
        by_cases hi : k = i
        · subst hi
          rw [read_of_lt h.2 (Nat.lt_succ_self k), read_of_lt h'.2 (Nat.lt_succ_self k)]
        · simpa [Memory.read, hi] using heq i
      rw [htail]

/-- Two storages in canonical form that read the same everywhere are equal. -/
theorem wf_ext {m m' : Memory} (h : m.wf = true) (h' : m'.wf = true) (heq : ∀ i, m.read i = m'.read i) : m = m' :=
  wfFrom_ext h h' heq

/-- The reset state's record image is in canonical form. -/
theorem reset_rimg_wf : State.reset.rimg.wf = true := rfl

end Sys2Proof.Laws
end

