-- ==== Sys2Proof/Laws/Exec.lean ====
section
/-! SUPPORT. What each instruction can do, once for each: if it answers next t, then t is the state with these writes. -/

namespace Sys2Proof.Laws

open Sys2Proof Sys2Proof.Machine

/-- FBUILD writes OBUF and the result channel; the frame is at most 261 bytes long. -/
theorem fbuild_cases {s t : State} (h : exec .fbuild s = .next t) :
    ∃ F e n, F.length ≤ 261 ∧ t = (s.setOutput F).setChannel e false false n := by
  simp only [exec, execFbuild] at h
  split at h
  · rename_i F hF
    injection h with ht
    exact ⟨F, .ok, _, (frameBuild_length hF).2, ht.symm⟩
  · injection h with ht
    exact ⟨[], .payloadTooLong, _, by simp, ht.symm⟩

/-- FPROBE writes the result channel only. -/
theorem fprobe_cases {s t : State} (h : exec .fprobe s = .next t) :
    t = s.setChannel .ok false false (frameProbe s.ibuf) := by
  simp only [exec, execFprobe, succeed_eq] at h
  injection h with ht
  exact ht.symm

/-- FPARSE writes a whole frame or clears the frame registers, and the result channel. -/
theorem fparse_cases {s t : State} (h : exec .fparse s = .next t) :
    (∃ f hd c, f.payload.length ≤ 255 ∧ t = (s.setFrame f).setChannel .ok hd c (frameProbe s.ibuf)) ∨
      ∃ e hd c, t = s.clearFrame.setChannel e hd c (frameProbe s.ibuf) := by
  simp only [exec, execFparse] at h
  split at h
  · rename_i f L hf
    injection h with ht
    rw [frameParse_need] at ht
    exact .inl ⟨f, _, _, (frameParse_payload hf).2, ht.symm⟩
  · rename_i e he
    injection h with ht
    rw [frameParse_need] at ht
    exact .inr ⟨e, _, _, ht.symm⟩

/-- LSIZE writes the result channel only. -/
theorem lsize_cases {s t : State} (h : exec .lsize s = .next t) : ∃ e n, t = s.setChannel e false false n := by
  simp only [exec, execLsize] at h
  split at h <;> (injection h with ht; exact ⟨_, _, ht.symm⟩)

/-- FDECODE writes the whole record or clears it, and the result channel. -/
theorem fdecode_cases {s t : State} (h : exec .fdecode s = .next t) :
    (∃ lay, s.layoutCheck = .ok lay ∧ totalSize lay ≤ s.ibuf.length ∧
        t = (s.decodeRecord Config.nativeOrder lay).setChannel .ok false false (totalSize lay)) ∨
      ∃ e n, t = s.clearRecord.setChannel e false false n := by
  simp only [exec, execFdecode] at h
  split at h
  · injection h with ht
    exact .inr ⟨_, _, ht.symm⟩
  · rename_i lay hlay
    split at h
    · injection h with ht
      exact .inr ⟨_, _, ht.symm⟩
    · rename_i hlen
      injection h with ht
      exact .inl ⟨lay, hlay, Nat.not_lt.mp hlen, ht.symm⟩

/-- FENCODE writes OBUF, at most BUF_SIZE bytes, and the result channel. -/
theorem fencode_cases {s t : State} (h : exec .fencode s = .next t) :
    ∃ F e n, F.length ≤ Config.bufSize ∧ t = (s.setOutput F).setChannel e false false n := by
  simp only [exec, execFencode] at h
  split at h
  · injection h with ht
    exact ⟨[], _, _, by simp, ht.symm⟩
  · rename_i lay hlay
    split at h
    · injection h with ht
      exact ⟨[], _, _, by simp, ht.symm⟩
    · injection h with ht
      refine ⟨_, _, _, ?_, ht.symm⟩
      rw [encoded_length _ _ (fun i f => encodedField_length _ _ _ i f)]
      exact (layoutCheck_ok hlay).2.2.1

/-- ILLEGAL, in each of its rows, writes the result channel only. -/
theorem illegal_cases {s t : State} {v : Word} (h : illegalOp v s = .next t) :
    t = s.setChannel .illegalOp false false (v.extractLsb' 0 16).toNat := by
  simp only [illegalOp, raise_eq] at h
  injection h with ht
  exact ht.symm

/-- IPUSH appends the byte where there is room, else sets IOVF. -/
theorem ipush_cases {s t : State} {b : Byte} (h : exec (.ipush b) s = .next t) :
    (s.ibuf.length < Config.bufSize ∧ t = s.setInput (s.ibuf ++ [b]) s.iovf) ∨
      (Config.bufSize ≤ s.ibuf.length ∧ t = s.setInput s.ibuf true) := by
  simp only [exec, execIpush] at h
  split at h
  · rename_i hb
    injection h with ht
    exact .inl ⟨inBuf_iff.mp hb, ht.symm⟩
  · rename_i hb
    injection h with ht
    exact .inr ⟨by have := inBuf_eq_false_iff.mp (Bool.not_eq_true _ ▸ hb); omega, ht.symm⟩

/-- IPUSH of bytes that fit appends them, in order. -/
theorem execAll_pushes (bs : List Byte) (is : List Instr) (s : State) (h : s.ibuf.length + bs.length ≤ Config.bufSize) :
    execAll (bs.map .ipush ++ is) s = execAll is (s.setInput (s.ibuf ++ bs) s.iovf) := by
  induction bs generalizing s with
  | nil => simp [State.setInput]
  | cons b bs ih =>
    rw [List.length_cons] at h
    have hb : Config.inBuf (s.ibuf.length + 1) = true := inBuf_iff.mpr (by omega)
    have hi : exec (.ipush b) s = .next (s.setInput (s.ibuf ++ [b]) s.iovf) := by simp [exec, execIpush, hb]
    rw [List.map_cons, List.cons_append, execAll, hi]
    simpa [State.setInput] using ih (s.setInput (s.ibuf ++ [b]) s.iovf) (by simp [State.setInput]; omega)

/-- ICLR and then IPUSH of bytes that fit leave exactly those bytes in IBUF. -/
theorem execAll_refill (bs : List Byte) (is : List Instr) (s : State) (h : bs.length ≤ Config.bufSize) :
    execAll (.iclr :: (bs.map .ipush ++ is)) s = execAll is (s.setInput bs false) := by
  have hc : exec .iclr s = .next (s.setInput [] false) := rfl
  rw [execAll, hc]
  simpa [State.setInput] using execAll_pushes bs is (s.setInput [] false) (by simpa [State.setInput] using h)

/-- ICLR empties IBUF and clears IOVF. -/
theorem iclr_cases {s t : State} (h : exec .iclr s = .next t) : t = s.setInput [] false := by
  simp only [exec, execIclr] at h
  injection h with ht
  exact ht.symm

end Sys2Proof.Laws
end

