-- ==== Sys2Proof/Laws/PerInstr.lean ====
section
/-! SUPPORT. Statements about every instruction as syntax, one lemma for each constructor. -/

namespace Sys2Proof.Laws.LowAddressBits

open Sys2Proof

/-- The two low bits of a bus write's address do not matter: an instruction's bus write decodes the same at each of the
four byte addresses of its word (20_memory.md R61). -/
def Statement (i : Instr) : Prop :=
  ∀ low : BitVec 2, decodeWrite ((encode i).addr ||| low.setWidth 16) (encode i).data =
    decodeWrite (encode i).addr (encode i).data

theorem locate_cmd (low : BitVec 2) : locate (0x0004 ||| low.setWidth 16) = .cmd := by
  revert low; decide

theorem locate_ipush (low : BitVec 2) : locate (0x0024 ||| low.setWidth 16) = .ipush := by
  revert low; decide

theorem locate_iclr (low : BitVec 2) : locate (0x0028 ||| low.setWidth 16) = .iclr := by
  revert low; decide

theorem of_cmd {i : Instr} (h : (encode i).addr = 0x0004) : Statement i := fun low => by
  rw [h]
  simp only [decodeWrite, locate_cmd low]
  rfl

theorem fbuild : Statement .fbuild := of_cmd rfl

theorem fprobe : Statement .fprobe := of_cmd rfl

theorem fparse : Statement .fparse := of_cmd rfl

theorem lsize : Statement .lsize := of_cmd rfl

theorem fdecode : Statement .fdecode := of_cmd rfl

theorem fencode : Statement .fencode := of_cmd rfl

theorem illegalZero : Statement .illegalZero := of_cmd rfl

theorem illegalSeven : Statement .illegalSeven := of_cmd rfl

theorem illegalHigh (low : BitVec 3) : Statement (.illegalHigh low) := of_cmd rfl

theorem illegalMbz (v : Word) : Statement (.illegalMbz v) := of_cmd rfl

theorem ipush (b : Byte) : Statement (.ipush b) := fun low => by
  simp only [encode, decodeWrite, locate_ipush low]
  rfl

theorem iclr : Statement .iclr := fun low => by
  simp only [encode, decodeWrite, locate_iclr low]
  rfl

end Sys2Proof.Laws.LowAddressBits
end

