-- ==== Sys2Proof/Laws/Step.lean ====
section
/-! SUPPORT. What a step does with the oldest pending event, one lemma for each kind of event. -/

namespace Sys2Proof.Laws

open Sys2Proof Sys2Proof.Machine

theorem step_idle {s : State} (h : s.pending = []) : step s = .next s := by
  simp [step, acceptNext, h]

theorem step_cons {s : State} {e : HostEvent} {rest : List HostEvent} (h : s.pending = e :: rest) :
    step s = accept e { s with pending := rest } := by
  simp [step, acceptNext, h]

/-- A bus write that starts an instruction runs it. -/
theorem busWrite_instr {a : Addr} {v : Word} {i : Instr} (h : decodeWrite a v = .ok i) (s : State) :
    busWrite a v s = exec i s := by
  simp [busWrite, h]

/-- Any other bus write stores. -/
theorem busWrite_store {a : Addr} {v : Word} {l : Loc} (h : decodeWrite a v = .error (.notACommand l)) (s : State) :
    busWrite a v s = .next (s.writeLoc v l) := by
  simp [busWrite, h]

/-- A write that starts no instruction is rejected under its own location. -/
theorem decodeWrite_error {a : Addr} {v : Word} {l : Loc} (h : decodeWrite a v = .error (.notACommand l)) :
    l = locate a ∧ l ≠ .cmd ∧ l ≠ .ipush ∧ l ≠ .iclr := by
  unfold decodeWrite at h
  split at h <;> first
    | cases h; done
    | (injection h with h
       injection h with h
       subst h
       exact ⟨rfl, by assumption, by assumption, by assumption⟩)

end Sys2Proof.Laws
end

