-- ==== Sys2Proof/Tests/Slice0.lean ====
section
/-! SUPPORT. The model's own tests: words written out from the spec's encodings, single steps with the results that
95_test_vectors.md gives, and for each statement with hypotheses a state and operands that meet them. -/

namespace Sys2Proof.Tests

open Sys2Proof Sys2Proof.Machine

/-! ## Helpers -/

/-- The next state of an outcome, if there is one. -/
def nextOf : Host.Outcome State Fault Refusal → Option State
  | .next t => some t
  | .fault _ | .refused _ => none

/-- The reset state with bytes in IBUF. -/
def withInput (bs : List Byte) : State := { State.reset with ibuf := bs }

/-- The reset state with a layout, a record's words, presence bits and bytes in IBUF. -/
def withLayout (ds vs : List Word) (pres : BitVec 64) (bs : List Byte) : State :=
  { State.reset with
    lcount := BitVec.ofNat 7 ds.length, layout := Vector.ofFn fun i => ds.getD i.val 0
    rval := Vector.ofFn fun i => vs.getD i.val 0, rpres := pres, ibuf := bs }

/-! ## Well-formedness -/

/-- An `illegalMbz` whose bits 31:4 are 0 is no such word (R81). -/
theorem test_wf_refuses_mbz_zero : Instr.wf (.illegalMbz 0x00000005) = false := by decide

theorem test_wf_accepts_mbz : Instr.wf (.illegalMbz 0x00000011) = true := by decide

/-! ## Words written out bit by bit (30_encoding.md R80-R82; 20_memory.md R62) -/

/-- CMD word: Z (28 bits of 0), OP 0001 (R80, R82). -/
theorem test_decode_fbuild : decodeCmd 0b00000000000000000000000000000001#32 = .fbuild := by decide

theorem test_decode_fprobe : decodeCmd 0b00000000000000000000000000000010#32 = .fprobe := by decide

theorem test_decode_fparse : decodeCmd 0b00000000000000000000000000000011#32 = .fparse := by decide

theorem test_decode_lsize : decodeCmd 0b00000000000000000000000000000100#32 = .lsize := by decide

theorem test_decode_fdecode : decodeCmd 0b00000000000000000000000000000101#32 = .fdecode := by decide

theorem test_decode_fencode : decodeCmd 0b00000000000000000000000000000110#32 = .fencode := by decide

theorem test_decode_illegalZero : decodeCmd 0b00000000000000000000000000000000#32 = .illegalZero := by decide

theorem test_decode_illegalSeven : decodeCmd 0b00000000000000000000000000000111#32 = .illegalSeven := by decide

/-- OP 1101: a reserved op code of the row 8..F, with low bits 101 (R83). -/
theorem test_decode_illegalHigh : decodeCmd 0b00000000000000000000000000001101#32 = .illegalHigh 0b101 := by decide

/-- OP = 1 with bit 4 set (V-I4). -/
theorem test_decode_illegalMbz :
    decodeCmd 0b00000000000000000000000000010001#32 = .illegalMbz 0x00000011 := by decide

/-- Address 0x0024, and 0x0027 with its low bits ignored; data bits 31:8 are ignored (V-M9). -/
theorem test_decode_ipush :
    decodeWrite 0b0000000000100100#16 0x000001AB = .ok (.ipush 0xAB) ∧
      decodeWrite 0b0000000000100111#16 0x000001AB = .ok (.ipush 0xAB) := by decide

theorem test_decode_iclr : decodeWrite 0b0000000000101000#16 0xFFFFFFFF = .ok .iclr := by decide

/-- A write to STATUS is no instruction. -/
theorem test_decode_rejects_status : decodeWrite 0x0008 0x00000001 = .error (.notACommand .status) := by decide

/-- Addresses of R62's table at the ends of its ranges. -/
theorem test_locate_ends :
    locate 0x0050 = .info ∧ locate 0x0054 = .unmapped ∧ locate 0x00FC = .unmapped ∧
    locate 0x0100 = .layout 0 ∧ locate 0x01FC = .layout 63 ∧ locate 0x0200 = .rval 0 ∧ locate 0x02FC = .rval 63 ∧
    locate 0x0300 = .unmapped ∧ locate 0x03FC = .unmapped ∧ locate 0x0400 = .fpay 0 ∧ locate 0x07FC = .fpay 255 ∧
    locate 0x0800 = .unmapped ∧ locate 0x0FFC = .unmapped ∧ locate 0x1000 = .obuf 0 ∧ locate 0x1FFC = .obuf 1023 ∧
    locate 0x2000 = .rimg 0 ∧ locate 0x2FFC = .rimg 1023 ∧ locate 0x3000 = .ibuf 0 ∧ locate 0x3FFC = .ibuf 1023 ∧
    locate 0x4000 = .unmapped ∧ locate 0xFFFC = .unmapped := by decide

/-! ## Single steps with the results of 95_test_vectors.md -/

/-- V-B7: a payload equal to the header is carried unchanged. -/
theorem test_fbuild_VB7 :
    (nextOf (exec .fbuild { withInput [0x57, 0xAB] with bcmd := 0x03 })).map (fun t => (t.obuf, t.result, t.err)) =
      some ([0x57, 0xAB, 0x00, 0x03, 0x02, 0x57, 0xAB, 0x09], 8, .ok) := by decide

/-- W1: the reset command of the source's §8. -/
theorem test_fbuild_W1 :
    (nextOf (exec .fbuild { State.reset with bcmd := 0x0F })).map State.obuf =
      some [0x57, 0xAB, 0x00, 0x0F, 0x00, 0x11] := by decide

/-- V-R4 and V-R2. -/
theorem test_fprobe_VR4 :
    (nextOf (exec .fprobe (withInput [0x57, 0xAB, 0x00, 0x02, 0x08]))).map State.result = some 14 ∧
      (nextOf (exec .fprobe (withInput [0x57, 0xAB, 0x00, 0x0F]))).map State.result = some 0 := by decide

/-- V-P7: under VH the header is checked before the length. -/
theorem test_fparse_VP7 :
    (nextOf (exec .fparse { withInput [0x55, 0xAB, 0x00, 0x0F, 0x00] with vh := true })).map
        (fun t => (t.err, t.result, t.hdrOk, t.fvalid)) = some (.headerMismatch, 6, false, false) := by decide

/-- V-P3: a lenient parse records the checksum mismatch. -/
theorem test_fparse_VP3 :
    (nextOf (exec .fparse (withInput [0x57, 0xAB, 0x00, 0x0F, 0x00, 0x12]))).map
        (fun t => (t.statusWord, t.fhdr, t.fcmd, t.fsum)) = some (0x110, 0x57AB, 0x0F, 0x12) := by decide

/-- V-L6: ORDER = 3 is reserved; the info is the field's index. -/
theorem test_lsize_VL6 :
    (nextOf (exec .lsize (withLayout [0x05, 0x05, 0x0C] [] 0 []))).map (fun t => (t.err, t.result)) =
      some (.layoutInvalid, 2) := by decide

/-- V-L1: layout A has 12 bytes. -/
theorem test_lsize_VL1 :
    (nextOf (exec .lsize (withLayout [0x05, 0x05, 0x02, 0x00, 0x00030003] [] 0 []))).map (fun t => (t.err, t.result)) =
      some (.ok, 12) := by decide

/-- The signed fields of V-D4: a sign-extended byte, a big-endian and a little-endian integer. -/
theorem test_fdecode_VD4 :
    (nextOf (exec .fdecode (withLayout [0x10, 0x11, 0x16] [] 0 [0x80, 0xFF, 0xFE, 0x01, 0x00, 0x00, 0x80]))).map
        (fun t => (t.rval.get 0, t.rval.get 1, t.rval.get 2, t.rpres, t.result)) =
      some (0xFFFFFF80, 0xFFFFFFFE, 0x80000001, 0x7, 7) := by decide

/-- V-D4 and V-D5: the native field under each byte order. -/
theorem test_native_VD5 :
    decodedWord .be ⟨3, .int16, .native, false⟩ [0x12, 0x34] = 0x1234 ∧
      decodedWord .le ⟨3, .int16, .native, false⟩ [0x12, 0x34] = 0x3412 := by decide

/-- V-D2: a short buffer clears the record. -/
theorem test_fdecode_too_small :
    (nextOf (exec .fdecode (withLayout [0x05] [7] 1 [0x86]))).map (fun t => (t.err, t.result, t.rval.get 0, t.rpres)) =
      some (.bufferTooSmall, 2, 0, 0) := by decide

/-- V-E9: a block's bytes come from RIMG at its offset. -/
theorem test_fencode_VE9 :
    (nextOf (exec .fencode { withLayout [0x00020003, 0x00] [0, 0x7F] 3 [] with rimg := [(0, 0xDE), (1, 0xAD)] })).map
        (fun t => (t.obuf, t.err, t.result)) = some ([0xDE, 0xAD, 0x7F], .ok, 3) := by decide

/-- V-E7: VALUE_RANGE(0) comes before the missing field at index 1. -/
theorem test_fencode_VE7 :
    (nextOf (exec .fencode (withLayout [0x10, 0x11] [0x80, 0] 1 []))).map (fun t => (t.err, t.result)) =
      some (.valueRange, 0) := by decide

/-- V-I6: RESULT holds bits 15:0 of the word. -/
theorem test_illegalMbz_VI6 :
    (nextOf (exec (.illegalMbz 0xFFFF1234) State.reset)).map (fun t => (t.err, t.result)) =
      some (.illegalOp, 0x1234) := by decide

/-- V-I3, with FVALID kept. -/
theorem test_illegalHigh_VI3 :
    (nextOf (exec (.illegalHigh 7) { State.reset with fvalid := true, hdrOk := true })).map
        (fun t => (t.statusWord, t.result)) = some (0x109, 0x000F) := by decide

/-- V-I1 and V-I2. -/
theorem test_illegal_VI1_VI2 :
    (nextOf (exec .illegalZero State.reset)).map (fun t => (t.err, t.result)) = some (.illegalOp, 0) ∧
      (nextOf (exec .illegalSeven State.reset)).map (fun t => (t.err, t.result)) = some (.illegalOp, 7) := by decide

/-- Part of P1: a CMD line and a byte-by-byte read of OBUF as transfers (30_encoding.md R95). -/
theorem test_program_P1_lines :
    programEvents [.wr .bhdr 0x57AB, .clr, .cmd .fbuild, .rdobuf [0x57, 0xAB]] =
        [.write 0x0014 0x57AB, .write 0x0028 0, .write 0x0004 1, .read 0x1000, .read 0x1004] ∧
      programExpected [.cmd .fbuild, .rdobuf [0x57, 0xAB], .rd .olen 6] = [0x57, 0xAB, 6] := by decide

/-- V-M9: a push keeps the low byte of the data. -/
theorem test_ipush_VM9 :
    (nextOf (busWrite 0x0024 0x000001AB State.reset)).map State.ibuf = some [0xAB] := by decide

/-- V-M8: ICLR empties IBUF and clears IOVF. -/
theorem test_iclr_VM8 :
    (nextOf (exec .iclr { withInput [1, 2] with iovf := true })).map (fun t => (t.ibuf, t.iovf)) =
      some ([], false) := by decide

/-- V-M12: an LCOUNT write clears RPRES. -/
theorem test_lcount_write_VM12 :
    (nextOf (busWrite 0x0044 3 { State.reset with rpres := 5 })).map (fun t => (t.lcount, t.rpres)) = some (3, 0) := by
  decide

/-- V-M3 and V-M15: reserved bits are not stored. -/
theorem test_register_masks_VM3_VM15 :
    (nextOf (busWrite 0x0000 0xFFFFFFFF State.reset)).map (fun t => t.busRead 0x0000) = some 0x00000003 ∧
      (nextOf (busWrite 0x0010 0xFFFF1234 State.reset)).map (fun t => t.busRead 0x0010) = some 0x00001234 := by decide

/-- V-M11: the record image stores the low byte; writing 0 removes the cell. -/
theorem test_rimg_write_VM11 :
    (nextOf (busWrite 0x2000 0x1234 State.reset)).map (fun t => t.busRead 0x2000) = some 0x34 ∧
      (nextOf (busWrite 0x2004 0 { State.reset with rimg := [(0, 1), (1, 2), (5, 3)] })).map State.rimg =
        some [(0, 1), (5, 3)] := by decide

/-- The first table row, placed as a fetch places it, runs from reset and gives V-B10. -/
theorem test_fetch_word_runs :
    (nextOf (step (State.reset.withFetchWord 32 1))).map (fun t => (t.obuf, t.pending)) =
      some ([0x57, 0xAB, 0x00, 0x00, 0x00, 0x02], []) := by decide

theorem test_fetch_ipush_runs : (nextOf (step (State.reset.withFetchWord 16 0x24))).map State.ibuf = some [0] := by
  decide

/-! ## Witnesses: a state and operands that meet the hypotheses of each statement -/

/-- The invariant at reset (also the premise of UnmappedAndReservedAreInert, WriteThenReadGivesStoredBits,
WindowReadsAndWrites and EveryStepKeepsInvariant). -/
theorem witness_inv : ({ State.reset with rimg := [(0, 1), (7, 2)] } : State).Inv :=
  ⟨Nat.zero_le _, Nat.zero_le _, Nat.zero_le _, by decide,
    by have := Laws.bufSize_ge; simp [Memory.below]; omega, fun _ => ⟨rfl, rfl, rfl, rfl, rfl⟩⟩

theorem witness_DecodeEncodeAgree : Instr.wf (.illegalMbz 0x00000010) = true := by decide

theorem witness_EncodeDecodeAgree :
    (locate 0x0007 = .cmd ∧ decodeWrite 0x0007 0xFFFFFFFF = .ok (.illegalMbz 0xFFFFFFFF)) ∧
      (locate 0x0027 = .ipush ∧ decodeWrite 0x0027 0xFFFFFFFF = .ok (.ipush 0xFF)) := by decide

/-- The last entry of each window (AddressMapIsInverted). -/
theorem witness_AddressMapIsInverted :
    addrOf (.layout 63) = some 0x01FC ∧ addrOf (.fpay 255) = some 0x07FC ∧ addrOf (.obuf 1023) = some 0x1FFC ∧
      addrOf (.rimg 1023) = some 0x2FFC ∧ addrOf (.ibuf 1023) = some 0x3FFC ∧ addrOf .info = some 0x0050 ∧
      locate 0x0036 = .faddr ∧ locate 0x3FFF ≠ .unmapped ∧ locate 0x4000 = .unmapped := by decide

/-- The premise of StatusRegisterFields, with a different value in each read-only register (R32-R34, R62). -/
theorem witness_StatusRegisterFields :
    ({ withInput [1, 2] with fvalid := true, fhdr := 0x57AB, faddr := 3, fcmd := 4, fsum := 5, fpay := [6] } : State).Inv ∧
      [0x0020, 0x002C, 0x0030, 0x0034, 0x0038, 0x003C, 0x0040].map
          ({ withInput [1, 2] with fvalid := true, fhdr := 0x57AB, faddr := 3, fcmd := 4, fsum := 5, fpay := [6] } :
            State).busRead =
        [2, 0, 0x57AB, 3, 4, 1, 5] :=
  ⟨⟨by have := Laws.bufSize_ge; simp [withInput]; omega, Nat.zero_le _, by decide, by decide, by decide,
    fun h => absurd h (by decide)⟩, by decide⟩

theorem witness_PseudoOperationsExpand :
    [(0x57 : Byte), 0xAB].length ≤ 1024 ∧ Instr.isCommand .fbuild = true ∧ Instr.isCommand (.ipush 1) = false := by decide

theorem witness_StepRunsDecodedInstruction :
    (State.reset.withFetchWord 32 3).pending = [.write 0x0004 3] ∧ decodeWrite 0x0004 3 = .ok .fparse := by decide

theorem witness_ReadsChangeNothing :
    ({ State.reset with pending := [.read 0x0008] } : State).pending = [.read 0x0008] ∧ State.reset.pending = [] := by
  decide

/-- One address for each access. -/
theorem witness_accesses :
    (locate 0x0054).access = .unmapped ∧ (locate 0x0028).access = .writeOnly ∧ (locate 0x3FFC).access = .readOnly ∧
      (locate 0x0000).access = .readWrite ∧ (locate 0x2410).access = .readWrite := by decide

/-- The last index of RIMG that every BUF_SIZE has. -/
theorem witness_WriteThenReadGivesStoredBits :
    ({ State.reset with rimg := [(0, 1), (7, 2)] } : State).Inv ∧ (locate 0x2410).access = .readWrite ∧
      ∀ i, locate 0x2410 = .rimg i → i < Config.bufSize := by
  refine ⟨witness_inv, by decide, fun i hi => ?_⟩
  have h : locate 0x2410 = .rimg 260 := by decide
  have := Laws.bufSize_ge
  rw [h] at hi
  injection hi
  omega

theorem witness_LayoutWritesInvalidateRecord :
    locate 0x0044 = .lcount ∧ locate 0x01FC = .layout 63 ∧
      (nextOf (busWrite 0x0044 1 State.reset)).map (fun t => (t.lcount, t.descriptors)) = some (1, [0]) := by decide

theorem witness_LayoutWrites_check :
    (withLayout [0x05] [] 0 []).layoutCheck = .ok [⟨0, .int16, .le, false⟩] ∧
      0 < (withLayout [0x05] [] 0 []).lcount.toNat := by decide

/-- Room at the last free byte, and none when IBUF is full. -/
theorem witness_IpushAppendsOrOverflows :
    (withInput (List.replicate (Config.bufSize - 1) 0)).ibuf.length < Config.bufSize ∧
      Config.bufSize ≤ (withInput (List.replicate Config.bufSize 0)).ibuf.length := by
  have := Laws.bufSize_ge
  simp [withInput]
  omega

theorem witness_ClearThenPushesFillInput :
    [(1 : Byte), 2].length ≤ Config.bufSize ∧
      ({ State.reset with pending := [.write 0x0028 0, .write 0x0024 1, .write 0x0024 2] } : State).pending =
        .write 0x0028 0 :: [(1 : Byte), 2].map (fun b => .write 0x0024 (b.setWidth 32)) :=
  ⟨by have := Laws.bufSize_ge; simp; omega, by decide⟩

theorem witness_ChecksumIsByteSum :
    frameBuild 0x57 0xAB 0x00 0x0F [] = some [0x57, 0xAB, 0x00, 0x0F, 0x00, 0x11] := by decide

/-- Complete frames: the §8 reset command, the same with the address and the command swapped, with another change that
keeps the sum, and with one that does not. -/
theorem witness_VerifierSeesOnlyTheByteSum :
    [(0x57 : Byte), 0xAB, 0x00, 0x0F, 0x00].Perm [0x57, 0xAB, 0x0F, 0x00, 0x00] ∧
      csumOk [0x57, 0xAB, 0x00, 0x0F, 0x00, 0x11] = some true ∧ csumOk [0x57, 0xAB, 0x0F, 0x00, 0x00, 0x11] = some true ∧
      csumOk [0x58, 0xAA, 0x00, 0x0F, 0x00, 0x11] = some true ∧
      csumOk [0x57, 0xAB, 0x00, 0x0F, 0x00, 0x12] = some false := by decide

/-- Payloads on both sides of the limit (FrameBuildGivesBytes, BuiltFrameShape, FbuildWritesFrame). -/
theorem witness_payload_limit :
    (withInput (List.replicate 255 0)).ibuf.length ≤ 255 ∧ 255 < (withInput (List.replicate 256 0)).ibuf.length := by
  simp only [withInput, List.length_replicate]
  decide

theorem witness_FbuildIsDeterminedByOperands :
    State.reset.bhdr = { State.reset with fvalid := true }.bhdr ∧
      State.reset.ibuf = { State.reset with fvalid := true }.ibuf := by decide

theorem witness_FprobeGivesLength : ([] : List Byte).length < 5 ∧ 5 ≤ [(0x57 : Byte), 0xAB, 0, 2, 8].length := by decide

/-- The last byte of a frame is there, and not. -/
theorem witness_complete_frame :
    ((withInput [0x57, 0xAB, 0, 0xF, 0, 0x11]).ibuf.getD 4 0).toNat + 6 ≤
        (withInput [0x57, 0xAB, 0, 0xF, 0, 0x11]).ibuf.length ∧
      (withInput [0x57, 0xAB, 0, 0xF, 0]).ibuf.length < ((withInput [0x57, 0xAB, 0, 0xF, 0]).ibuf.getD 4 0).toNat + 6 := by
  decide

theorem witness_BuildParseRoundTrip :
    ((0x57, 0xAB) : Byte × Byte) = (0x57, 0xAB) ∧ (true = true ∧ ((0x55, 0xAB) : Byte × Byte) ≠ (0x57, 0xAB)) := by decide

theorem witness_StrictPrefixNeverParses :
    frameBuild 0x55 0xAB 0 0xF [] = some [0x55, 0xAB, 0, 0xF, 0, 0x0F] ∧
      5 < [(0x55 : Byte), 0xAB, 0, 0xF, 0, 0x0F].length := by decide

theorem witness_FparseIsPureAndIdempotent :
    (withInput [0x57]).ibuf = { withInput [0x57] with fvalid := true, fcmd := 7 }.ibuf := by decide

/-- A complete frame with different bytes after it. -/
theorem witness_ParseDependsOnFrameBytes :
    (frameProbe [0x57, 0xAB, 0, 0xF, 0, 0x11] = 6) ∧
      ([0x57, 0xAB, 0, 0xF, 0, 0x11] : List Byte).take (min 6 6) =
        ([0x57, 0xAB, 0, 0xF, 0, 0x11, 0xAA] : List Byte).take (min 7 6) := by decide

theorem witness_LoopedBackFrameParses :
    (withInput [1, 2, 3]).ibuf.length ≤ 255 ∧ { withInput [1, 2, 3] with vh := true }.bhdr = 0x57AB ∧
      (withInput [1, 2, 3]).hdrExp = 0x57AB := by decide

/-- Descriptors of each kind, and a byte and a block for the last clause. -/
theorem witness_DescriptorValidityAndSize :
    descField 0 0x00000008 = some ⟨0, .byte, .native, false⟩ ∧
      descField 1 0xFFFF0007 = some ⟨1, .block 65535, .le, false⟩ ∧ descField 2 0x0000000C = none ∧
      descField 2 0x00030013 = none ∧ descField 2 0x00010001 = none ∧ descField 2 0x00000020 = none := by decide

/-- LCOUNT over the limit, a bad field, and none bad (V-L10, V-L11). -/
theorem witness_LayoutCheckFindsFirstBadField :
    64 < ({ State.reset with lcount := 65 } : State).lcount.toNat ∧
      ({ State.reset with lcount := 64 } : State).lcount.toNat ≤ 64 ∧
      descValid ((withLayout [0x05, 0x0C] [] 0 []).layout.getD 1 0) = false ∧
      (withLayout [0x05, 0x0C] [] 0 []).layoutCheck = .error 1 := by decide

/-- A block of 1025 bytes is over every BUF_SIZE. -/
theorem witness_cumulative_size : (withLayout [0x04010003] [] 0 []).layoutCheck = .error 0 := by decide

theorem witness_LsizeGivesLayoutSize :
    (withLayout [0x05] [] 0 []).layoutCheck = .ok [⟨0, .int16, .le, false⟩] ∧
      ({ State.reset with lcount := 65 } : State).layoutCheck = .error 0xFFFF := by decide

theorem witness_PackUnpackInverse : 0xFFFF < 2 ^ (8 * 2) ∧ [(0x12 : Byte), 0x34].length = 2 := by decide

/-- A level-1 layout in the signature, a record of its kinds, and a buffer on each side of its size. -/
theorem witness_level_one_layout :
    layoutAdmitted [(⟨0, .int16, .le, true⟩ : LayoutField Nat), ⟨1, .block 2, .be, false⟩] = true ∧
      layoutSize [(⟨0, .int16, .le, true⟩ : LayoutField Nat), ⟨1, .block 2, .be, false⟩] = some 4 ∧
      [(⟨0, .int16, .le, true⟩ : LayoutField Nat), ⟨1, .block 2, .be, false⟩].all
        (kindMatches [(0, .int (-2)), (1, .bytes [7, 8])]) = true ∧
      inRange true 2 (-2) = true := by decide

/-- A record that lacks a field, and one with a value out of range (EncodeReportsFirstFailingField). -/
theorem witness_record_field_fails :
    RecordFieldFails [] [(⟨0, .byte, .be, false⟩ : LayoutField Nat)] 0 .missingField ∧
      RecordFieldFails [(0, .int 256)] [(⟨0, .byte, .be, false⟩ : LayoutField Nat)] 0 .valueRange :=
  ⟨⟨⟨0, .byte, .be, false⟩, rfl, .inl ⟨rfl, rfl⟩⟩, ⟨⟨0, .byte, .be, false⟩, rfl, .inr ⟨256, rfl, by decide, rfl⟩⟩⟩

/-- A record with a value of the wrong kind, a layout that repeats a name, one with a signed block, and lists that are no
complete frame (LevelOneRefusals). -/
theorem witness_level_one_refusals :
    kindMatches [(0, .bytes [1])] (⟨0, .byte, .be, false⟩ : LayoutField Nat) = false ∧
      layoutSize [(⟨0, .byte, .be, false⟩ : LayoutField Nat), ⟨0, .byte, .be, false⟩] = none ∧
      fieldDecode .be [(⟨0, .block 1, .be, true⟩ : LayoutField Nat)] [7] = .refused ∧
      fieldEncode .be [(0, .bytes [7])] [(⟨0, .block 1, .be, true⟩ : LayoutField Nat)] = .refused ∧
      csumOk [] = none ∧ csumOk [0x57, 0xAB, 0x00, 0x0F, 0x01, 0x11] = none := by decide

/-- A layout that fails the check, and one that passes with a buffer on each side of its size (FdecodeOutcomes,
ByteExactReencode). -/
theorem witness_FdecodeOutcomes :
    (withLayout [0x0C] [] 0 []).layoutCheck = .error 0 ∧
      (withLayout [0x05] [] 0 [0x86]).ibuf.length < totalSize [(⟨0, .int16, .le, false⟩ : LayoutField Nat)] ∧
      totalSize [(⟨0, .int16, .le, false⟩ : LayoutField Nat)] ≤ (withLayout [0x05] [] 0 [0x86, 0x1A]).ibuf.length := by
  decide

/-- A field that is not present, one whose word is out of range, and one that is neither (FencodeOutcomes). -/
theorem witness_FencodeOutcomes :
    (withLayout [0x00] [0] 0 []).EncodeFails [⟨0, .byte, .be, false⟩] 0 .missingField ∧
      (withLayout [0x00] [0x100] 1 []).EncodeFails [⟨0, .byte, .be, false⟩] 0 .valueRange ∧
      (withLayout [0x00] [0xFF] 1 []).WordInRange 0 ⟨0, .byte, .be, false⟩ := by
  refine ⟨⟨_, rfl, .inl ⟨by decide, rfl⟩⟩, ⟨_, rfl, .inr ⟨by decide, rfl, ?_, rfl⟩⟩, ?_⟩
  · unfold State.WordInRange; decide
  · unfold State.WordInRange; decide

/-- A layout whose second descriptor is invalid: ORDER = 3 (DescriptorValidityAndSize, LayoutCheckFindsFirstBadField). -/
theorem witness_invalid_descriptor :
    (withLayout [0x00, 0x0C] [] 0 []).lcount.toNat ≤ 64 ∧ 1 < (withLayout [0x00, 0x0C] [] 0 []).lcount.toNat ∧
      descField 1 ((withLayout [0x00, 0x0C] [] 0 []).layout.getD 1 0) = none ∧
      (withLayout [0x00, 0x0C] [] 0 []).layoutCheck = .error 1 ∧ Instr.isFieldCommand .fencode = true := by decide

theorem witness_FencodeComputesFieldEncode :
    fieldEncode Config.nativeOrder ((withLayout [0x00] [0xFF] 1 []).recordOf [⟨0, .byte, .be, false⟩]) [⟨0, .byte, .be, false⟩] =
        .ok [0xFF] ∧
      fieldEncode Config.nativeOrder ((withLayout [0x00] [0xFF] 0 []).recordOf [⟨0, .byte, .be, false⟩]) [⟨0, .byte, .be, false⟩] =
        .err .missingField 0 := by decide

theorem witness_FieldRoundTrip :
    (withLayout [0x00] [0xFF] 1 []).layoutCheck = .ok [⟨0, .byte, .be, false⟩] ∧
      (nextOf (exec .fencode (withLayout [0x00] [0xFF] 1 []))).map State.err = some .ok := by decide

theorem witness_IllegalReportsTheWord : (0 : Word).toNat = 0 ∧ 7 ≤ (7 : Word).toNat := by decide

/-- IOVF set, and cleared by a step (ResultChannelIsOverwritten, StatusFlagWriters). -/
theorem witness_iovf_cleared :
    (nextOf (step { State.reset with iovf := true, pending := [.write 0x0028 0] })).map State.iovf = some false := by
  decide

/-- FVALID changed by a step (StatusFlagWriters). -/
theorem witness_fvalid_changes :
    (nextOf (step { withInput [0x57, 0xAB, 0, 0xF, 0, 0x11] with pending := [.write 0x0004 3] })).map State.fvalid =
      some true := by decide

/-- A command that is not FPARSE (StatusFlagWriters), and a command of each unit (UnitsAreIndependent). -/
theorem witness_commands :
    Instr.isCommand .fbuild = true ∧ Instr.fbuild ≠ .fparse ∧ Instr.isFieldCommand .fdecode = true ∧
      Instr.isFrameCommand .fprobe = true ∧ Instr.isCommand (.ipush 0) = false := by decide

theorem witness_ResetLeavesTheResetValues :
    ({ withInput [1] with pending := [.reset] } : State).pending = [.reset] := by decide

end Sys2Proof.Tests
end

section
/-! PROOFS. Which inputs the level-1 functions refuse (00_scope.md R13; log entry 10). -/

namespace Sys2Proof.Proofs

open Sys2Proof Sys2Proof.Machine Sys2Proof.Laws

theorem isBlock_iff {k : Kind} : k.isBlock = true ↔ ∃ n, k = .block n := by
  cases k <;> simp [Kind.isBlock]

/-- The one field R140 does not have is a signed block. -/
theorem admitted_eq_false_iff {ν : Type} {f : LayoutField ν} :
    f.admitted = false ↔ f.signed = true ∧ ∃ n, f.kind = .block n := by
  rw [LayoutField.admitted, Bool.not_eq_false', Bool.and_eq_true, isBlock_iff, and_comm]

theorem layoutAdmitted_eq_false_iff {ν : Type} [DecidableEq ν] {lay : Layout ν} :
    layoutAdmitted lay = false ↔
      ¬ (lay.map fun f => f.name).Nodup ∨ ∃ f ∈ lay, f.signed = true ∧ ∃ n, f.kind = .block n := by
  simp only [layoutAdmitted, namesDistinct, Bool.and_eq_false_iff, decide_eq_false_iff_not, List.all_eq_false,
    Bool.not_eq_true, admitted_eq_false_iff]

theorem layoutSize_eq_none_iff {ν : Type} [DecidableEq ν] {lay : Layout ν} :
    layoutSize lay = none ↔ layoutAdmitted lay = false := by
  simp [layoutSize]

/-- `field_decode` looks at the signature only: its one error, for a short buffer, is no refusal. -/
theorem fieldDecode_eq_refused_iff {ν : Type} [DecidableEq ν] {native : ByteOrder} {lay : Layout ν} {B : List Byte} :
    fieldDecode native lay B = .refused ↔ layoutAdmitted lay = false := by
  unfold fieldDecode
  by_cases hadm : layoutAdmitted lay = true
  · by_cases hlen : B.length < totalSize lay <;> simp [hadm, hlen]
  · simp [hadm]

/-- A record's value is of the wrong kind: an integer for a block, or bytes that are not the block's size (R149). -/
theorem kindMatches_eq_false_iff {ν : Type} [DecidableEq ν] {R : Record ν} {f : LayoutField ν} :
    kindMatches R f = false ↔
      (∃ v n, R.get f.name = some (.int v) ∧ f.kind = .block n) ∨
        ∃ b, R.get f.name = some (.bytes b) ∧ ∀ n, f.kind = .block n → b.length ≠ n := by
  unfold kindMatches
  match R.get f.name with
  | none => simp
  | some (.int v) => cases f.kind <;> simp
  | some (.bytes b) => cases f.kind <;> simp


/-- `field_encode` looks at the signature before it looks for errors. -/
theorem fieldEncode_eq_refused_iff {ν : Type} [DecidableEq ν] {native : ByteOrder} {R : Record ν} {lay : Layout ν} :
    fieldEncode native R lay = .refused ↔ layoutAdmitted lay = false ∨ ∃ f ∈ lay, kindMatches R f = false := by
  have hall : lay.all (kindMatches R) = false ↔ ∃ f ∈ lay, kindMatches R f = false := by
    simp only [List.all_eq_false, Bool.not_eq_true]
  rw [← hall, ← Bool.and_eq_false_iff]
  unfold fieldEncode
  cases layoutAdmitted lay && lay.all (kindMatches R)
  · simp
  · cases firstFieldError (fun _ => encodeFieldError R) 0 lay <;> simp

theorem frameBuild_eq_none_iff {h0 h1 a c : Byte} {P : List Byte} :
    frameBuild h0 h1 a c P = none ↔ 255 < P.length := by
  refine ⟨fun h => Nat.not_le.mp fun hle => ?_, frameBuild_of_gt⟩
  rw [frameBuild_of_le hle] at h
  cases h

theorem csumOk_eq_none_iff {F : List Byte} : csumOk F = none ↔ F.length ≠ (byteAt F 4).toNat + 6 := by
  rw [ne_eq, ← frameComplete_iff]
  refine ⟨fun h hc => ?_, csumOk_of_not_complete⟩
  rw [csumOk_of_complete hc] at h
  cases h

/-- Settles O44: each function's refusals are exactly those of its own check. -/
theorem levelOneRefusals : Obligations.LevelOneRefusals := by
  intro ν _ native lay R B h0 h1 a c
  refine ⟨?_, ?_, ?_, frameBuild_eq_none_iff, csumOk_eq_none_iff⟩
  · rw [layoutSize_eq_none_iff, layoutAdmitted_eq_false_iff]
  · rw [fieldDecode_eq_refused_iff, layoutAdmitted_eq_false_iff]
  · simp only [fieldEncode_eq_refused_iff, layoutAdmitted_eq_false_iff, kindMatches_eq_false_iff, or_assoc,
      and_or_left, exists_or]

end Sys2Proof.Proofs
end

section
/-! PROOFS. FENCODE is `field_encode` of the level-2 record (00_scope.md R3; 41_field_codec.md R149, R151): the two
agree field by field, in the value's kind, in the error and in the bytes. -/

namespace Sys2Proof.Proofs

open Sys2Proof Sys2Proof.Machine Sys2Proof.Laws

/-! ## The record view as a level-1 record (R38) -/

theorem recordView_of_absent {s : State} {lay : Layout Nat} {i : Nat} (hp : s.present i = false) :
    s.recordView lay i = none := by
  unfold State.recordView
  cases lay[i]? <;> simp [hp]

theorem recordView_of_block {s : State} {lay : Layout Nat} {i n : Nat} {f : LayoutField Nat} (hi : lay[i]? = some f)
    (hp : s.present i = true) (hk : f.kind = .block n) :
    s.recordView lay i = some (.bytes (s.rimg.readBytes (fieldOffset lay i) n)) := by
  simp [State.recordView, hi, hp, hk]

theorem recordView_of_integer {s : State} {lay : Layout Nat} {i : Nat} {f : LayoutField Nat} (hi : lay[i]? = some f)
    (hp : s.present i = true) (hk : f.kind.isBlock = false) :
    s.recordView lay i = some (.int (wordValue f.signed (s.rvalAt i))) := by
  unfold State.recordView
  rw [hi]
  cases hkind : f.kind <;> simp_all [Kind.isBlock]

theorem lookup_filterMap_key {α β : Type} [DecidableEq α] (g : α → Option β) (keys : List α) (a : α) :
    (keys.filterMap fun k => (g k).map fun v => (k, v)).lookup a = if a ∈ keys then g a else none := by
  induction keys with
  | nil => rfl
  | cons k keys ih =>
    by_cases hak : a = k
    · subst hak
      cases hg : g a <;> simp [hg, ih]
    · cases hg : g k <;> simp [hg, ih, hak, List.lookup_cons, beq_eq_false_iff_ne.mpr hak]

/-- The level-2 record holds each field's view under the field's index. -/
theorem recordOf_get (s : State) (lay : Layout Nat) (i : Nat) : (s.recordOf lay).get i = s.recordView lay i := by
  unfold Record.get State.recordOf
  rw [lookup_filterMap_key]
  by_cases hi : i < lay.length
  · simp [hi]
  · simp [hi, State.recordView]

/-! ## Word ranges and integer ranges (R142, R151) -/

theorem eq_zeroExtend_low_iff {w : Nat} (v : Word) : v = (v.setWidth w).setWidth 32 ↔ v.toNat < 2 ^ w := by
  rw [← BitVec.toNat_inj, BitVec.toNat_setWidth, BitVec.toNat_setWidth, Nat.mod_eq_of_lt (b := 2 ^ 32)]
  · exact ⟨fun h => h ▸ Nat.mod_lt _ (by positivity), fun h => (Nat.mod_eq_of_lt h).symm⟩
  · exact lt_of_le_of_lt (Nat.mod_le _ _) v.isLt

/-- Sign extension of the low `w` bits gives the balanced remainder modulo `2 ^ w`, which is the integer itself exactly
inside the signed range. -/
theorem eq_signExtend_low_iff {w : Nat} (hpos : 0 < w) (hle : w ≤ 32) (v : Word) :
    v = (v.setWidth w).signExtend 32 ↔ -2 ^ (w - 1) ≤ v.toInt ∧ v.toInt < 2 ^ (w - 1) := by
  have hlow : ((v.setWidth w).signExtend 32).toInt = v.toInt.bmod (2 ^ w) := by
    rw [BitVec.toInt_signExtend_of_le hle, BitVec.toInt_setWidth, BitVec.toInt_eq_toNat_bmod v,
      Int.bmod_bmod_of_dvd (Nat.pow_dvd_pow 2 hle)]
  rw [← BitVec.toInt_inj, hlow, eq_comm, Int.bmod_eq_iff (by positivity), sub_self]
  obtain ⟨k, rfl⟩ : ∃ k, w = k + 1 := ⟨w - 1, by omega⟩
  have hpow : ((2 ^ (k + 1) : Nat) : Int) = 2 * 2 ^ k := by push_cast; ring
  simp only [hpow, Nat.add_sub_cancel, dvd_zero, and_true]
  omega

/-- A word stands for an integer of a field's range exactly when it is the extension of its own low bits. -/
theorem inRange_wordValue {size : Nat} (hpos : 0 < size) (hle : size ≤ 4) (signed : Bool) (v : Word) :
    inRange signed size (wordValue signed v) = true ↔ v = extend signed (8 * size) v.toNat := by
  cases signed
  · have hcast : ((v.toNat : Int) < 2 ^ (8 * size)) ↔ v.toNat < 2 ^ (8 * size) := by norm_cast
    simp [inRange, wordValue, extend, eq_zeroExtend_low_iff, hcast]
  · simp [inRange, wordValue, extend, eq_signExtend_low_iff (show 0 < 8 * size by omega) (by omega)]

/-- The low bits of a word are its integer modulo the width, read signed or unsigned. -/
theorem wordValue_emod {w : Nat} (hle : w ≤ 32) (signed : Bool) (v : Word) :
    (wordValue signed v % 2 ^ w).toNat = v.toNat % 2 ^ w := by
  have hmod : v.toInt % ((2 ^ w : Nat) : Int) = (v.toNat : Int) % ((2 ^ w : Nat) : Int) := by
    have hdvd : ((2 ^ w : Nat) : Int) ∣ ((2 ^ 32 : Nat) : Int) := Int.natCast_dvd_natCast.mpr (Nat.pow_dvd_pow 2 hle)
    rw [BitVec.toInt_eq_toNat_bmod, ← Int.emod_emod_of_dvd _ hdvd, Int.bmod_emod, Int.emod_emod_of_dvd _ hdvd]
  have hword : wordValue signed v % ((2 ^ w : Nat) : Int) = ((v.toNat % 2 ^ w : Nat) : Int) := by
    cases signed <;> simp only [wordValue, Bool.false_eq_true, if_false, if_true, hmod, Int.natCast_emod]
  exact_mod_cast congrArg Int.toNat hword

theorem width_eq (f : LayoutField Nat) : f.width = 8 * f.size := rfl

theorem size_of_integer {f : LayoutField Nat} (hk : f.kind.isBlock = false) : 0 < f.size ∧ f.size ≤ 4 := by
  unfold LayoutField.size
  cases h : f.kind <;> simp_all [Kind.isBlock, Kind.size]

/-! ## One field -/

theorem kindMatches_recordOf {s : State} {lay : Layout Nat} {i : Nat} {f : LayoutField Nat} (hi : lay[i]? = some f)
    (hname : f.name = i) : kindMatches (s.recordOf lay) f = true := by
  rw [← Bool.not_eq_false, kindMatches_eq_false_iff, hname, recordOf_get]
  cases hp : s.present i
  · simp [recordView_of_absent hp]
  · cases hk : f.kind.isBlock
    · simp [recordView_of_integer hi hp hk, ← isBlock_iff, hk]
    · obtain ⟨n, hn⟩ := isBlock_iff.mp hk
      simp [recordView_of_block hi hp hn, hn]

/-- `field_encode` and FENCODE report the same error for a field. -/
theorem encodeFieldError_recordOf {s : State} {lay : Layout Nat} {i : Nat} {f : LayoutField Nat}
    (hi : lay[i]? = some f) (hname : f.name = i) :
    encodeFieldError (s.recordOf lay) f = s.encodeError i f := by
  unfold encodeFieldError State.encodeError
  rw [hname, recordOf_get]
  cases hp : s.present i
  · simp [recordView_of_absent hp]
  · cases hk : f.kind.isBlock
    · obtain ⟨hpos, hle⟩ := size_of_integer hk
      have hrange := inRange_wordValue hpos hle f.signed (s.rvalAt i)
      rw [← width_eq] at hrange
      by_cases hword : s.rvalAt i = extend f.signed f.width (s.rvalAt i).toNat
      · simp [recordView_of_integer hi hp hk, hrange.mpr hword, ← hword]
      · simp [recordView_of_integer hi hp hk, mt hrange.mp hword, hword]
    · obtain ⟨n, hn⟩ := isBlock_iff.mp hk
      simp [recordView_of_block hi hp hn]

/-- A present field's view has the bytes that FENCODE emits for it. -/
theorem valueBytes_recordView {s : State} {native : ByteOrder} {lay : Layout Nat} {i : Nat} {f : LayoutField Nat}
    (hi : lay[i]? = some f) (hp : s.present i = true) :
    ∃ v, s.recordView lay i = some v ∧ valueBytes native f v = s.encodedField native lay i f := by
  cases hk : f.kind.isBlock
  · refine ⟨_, recordView_of_integer hi hp hk, ?_⟩
    have hw : 8 * f.size ≤ 32 := by have := (size_of_integer hk).2; omega
    simp [valueBytes, State.encodedField, hk, wordValue_emod hw, width_eq]
  · obtain ⟨n, hn⟩ := isBlock_iff.mp hk
    refine ⟨_, recordView_of_block hi hp hn, ?_⟩
    simp [valueBytes, State.encodedField, hn, Kind.isBlock, Kind.size, LayoutField.size]

theorem present_of_encodeError_none {s : State} {i : Nat} {f : LayoutField Nat} (h : s.encodeError i f = none) :
    s.present i = true := by
  cases hp : s.present i
  · simp [State.encodeError, hp] at h
  · rfl

/-! ## The whole layout -/

theorem firstFieldError_congr {ν : Type} {check check' : Nat → LayoutField ν → Option ErrCode} {lay : Layout ν}
    {i : Nat} (h : ∀ k f, lay[k]? = some f → check (i + k) f = check' (i + k) f) :
    firstFieldError check i lay = firstFieldError check' i lay := by
  induction lay generalizing i with
  | nil => rfl
  | cons f fs ih =>
    have hhead : check i f = check' i f := h 0 f rfl
    have htail : firstFieldError check (i + 1) fs = firstFieldError check' (i + 1) fs :=
      ih fun k g hk => by simpa [Nat.add_assoc, Nat.add_comm 1 k] using h (k + 1) g hk
    simp only [firstFieldError, hhead, htail]

/-- No field has an error when the search finds none. -/
theorem firstFieldError_eq_none {ν : Type} {check : Nat → LayoutField ν → Option ErrCode} {lay : Layout ν} {i : Nat}
    (h : firstFieldError check i lay = none) {k : Nat} {f : LayoutField ν} (hk : lay[k]? = some f) :
    check (i + k) f = none := by
  induction lay generalizing i k with
  | nil => cases hk
  | cons g fs ih =>
    simp only [firstFieldError] at h
    cases hg : check i g with
    | some e => simp [hg] at h
    | none =>
      simp only [hg] at h
      cases k with
      | zero => cases hk; exact hg
      | succ k => simpa [Nat.add_assoc, Nat.add_comm 1 k] using ih h hk

theorem firstFieldError_recordOf {s : State} {lay : Layout Nat} (hlay : s.layoutCheck = .ok lay) :
    firstFieldError (fun _ => encodeFieldError (s.recordOf lay)) 0 lay = firstFieldError s.encodeError 0 lay :=
  firstFieldError_congr fun k f hk => by
    rw [Nat.zero_add]
    exact encodeFieldError_recordOf hk (layoutCheck_name hlay hk)

/-- The level-2 record is in the signature of `field_encode` (R140, R149). -/
theorem recordOf_in_signature {s : State} {lay : Layout Nat} (hlay : s.layoutCheck = .ok lay) :
    (layoutAdmitted lay && lay.all (kindMatches (s.recordOf lay))) = true := by
  rw [layoutCheck_admitted hlay, Bool.true_and, List.all_eq_true]
  intro f hf
  obtain ⟨i, hi⟩ := List.mem_iff_getElem?.mp hf
  exact kindMatches_recordOf hi (layoutCheck_name hlay hi)

theorem fieldEncode_recordOf_of_error {s : State} {lay : Layout Nat} {native : ByteOrder} {e : ErrCode} {i : Nat}
    (hlay : s.layoutCheck = .ok lay) (h : firstFieldError s.encodeError 0 lay = some (e, i)) :
    fieldEncode native (s.recordOf lay) lay = .err e i := by
  unfold fieldEncode
  rw [if_pos (recordOf_in_signature hlay), firstFieldError_recordOf hlay, h]

theorem fieldEncode_recordOf_of_none {s : State} {lay : Layout Nat} {native : ByteOrder}
    (hlay : s.layoutCheck = .ok lay) (h : firstFieldError s.encodeError 0 lay = none) :
    fieldEncode native (s.recordOf lay) lay = .ok (lay.mapIdx (s.encodedField native lay)).flatten := by
  unfold fieldEncode
  rw [if_pos (recordOf_in_signature hlay), firstFieldError_recordOf hlay, h, List.flatMap_def]
  simp only [Answer.ok.injEq]
  refine congrArg List.flatten (List.ext_getElem (by simp) fun i hmap _ => ?_)
  have hlt : i < lay.length := by simpa using hmap
  have hi : lay[i]? = some lay[i] := List.getElem?_eq_getElem hlt
  have hp : s.present i = true := present_of_encodeError_none (by simpa using firstFieldError_eq_none h hi)
  obtain ⟨v, hv, hbytes⟩ := valueBytes_recordView (native := native) hi hp
  simpa only [List.getElem_map, List.getElem_mapIdx, layoutCheck_name hlay hi, recordOf_get, hv] using hbytes

/-! ## FENCODE -/

theorem exec_fencode_of_error {s : State} {lay : Layout Nat} {e : ErrCode} {i : Nat} (hlay : s.layoutCheck = .ok lay)
    (h : firstFieldError s.encodeError 0 lay = some (e, i)) :
    exec .fencode s = .next ((s.setOutput []).setChannel e false false i) := by
  simp [exec, execFencode, hlay, h]

theorem exec_fencode_of_none {s : State} {lay : Layout Nat} (hlay : s.layoutCheck = .ok lay)
    (h : firstFieldError s.encodeError 0 lay = none) :
    exec .fencode s = .next ((s.setOutput (lay.mapIdx (s.encodedField Config.nativeOrder lay)).flatten).setChannel .ok
      false false (totalSize lay)) := by
  simp [exec, execFencode, hlay, h]

/-- Settles O49: both sides follow the same first failing field, and without one they give the same bytes. -/
theorem fencodeComputesFieldEncode : Obligations.FencodeComputesFieldEncode := by
  intro s lay hlay
  cases h : firstFieldError s.encodeError 0 lay with
  | some p =>
    obtain ⟨e, i⟩ := p
    rw [fieldEncode_recordOf_of_error hlay h, exec_fencode_of_error hlay h]
    refine ⟨fun out hout => (by cases hout), fun e' i' he => ?_, by simp⟩
    cases he
    rfl
  | none =>
    have hlen := encoded_length _ lay fun i f => encodedField_length Config.nativeOrder lay s i f
    rw [fieldEncode_recordOf_of_none hlay h, exec_fencode_of_none hlay h, ← hlen]
    refine ⟨fun out hout => ?_, fun e i he => (by cases he), by simp⟩
    cases hout
    rfl

end Sys2Proof.Proofs
end

section
/-! PROOFS. What an instruction, a store and a step can do, said once for each, and the invariant that every step keeps
(10_state.md R32-R34, R39; 20_memory.md R64, R67; 70_reset_and_hazards.md R195). -/

namespace Sys2Proof.Proofs

open Sys2Proof Sys2Proof.Machine Sys2Proof.Laws

/-! ## Instructions -/

/-- What an instruction's next state is: the old state with the writes its row of the table has (30_encoding.md R93). -/
inductive ExecWrites (s : State) : Instr → State → Prop where
  | channel {i : Instr} {e : ErrCode} {n : Nat} (hi : i.isCommand = true) :
      ExecWrites s i (s.setChannel e false false n)
  | output {i : Instr} {bs : List Byte} {e : ErrCode} {n : Nat} (hi : i = .fbuild ∨ i = .fencode)
      (hlen : bs.length ≤ Config.bufSize) : ExecWrites s i ((s.setOutput bs).setChannel e false false n)
  | record {rval : Vector Word 64} {rimg : Memory} {rpres : BitVec 64} {e : ErrCode} {n : Nat} (hwf : rimg.wf = true)
      (hbelow : rimg.below Config.bufSize = true) :
      ExecWrites s .fdecode ((s.setRecord rval rimg rpres).setChannel e false false n)
  | frame {f : Frame} {e : ErrCode} {hd c : Bool} {n : Nat} (hlen : f.payload.length ≤ Config.maxPayload) :
      ExecWrites s .fparse ((s.setFrame f).setChannel e hd c n)
  | noFrame {e : ErrCode} {hd c : Bool} {n : Nat} : ExecWrites s .fparse (s.clearFrame.setChannel e hd c n)
  | push {b : Byte} (hlen : s.ibuf.length < Config.bufSize) :
      ExecWrites s (.ipush b) (s.setInput (s.ibuf ++ [b]) s.iovf)
  | overflow {b : Byte} (hfull : Config.bufSize ≤ s.ibuf.length) : ExecWrites s (.ipush b) (s.setInput s.ibuf true)
  | clearInput : ExecWrites s .iclr (s.setInput [] false)

theorem exec_writes {i : Instr} {s t : State} (h : exec i s = .next t) : ExecWrites s i t := by
  have hge := bufSize_ge
  cases i with
  | fbuild =>
    obtain ⟨F, e, n, hF, rfl⟩ := fbuild_cases h
    exact .output (.inl rfl) (by omega)
  | fencode =>
    obtain ⟨F, e, n, hF, rfl⟩ := fencode_cases h
    exact .output (.inr rfl) hF
  | fparse =>
    obtain ⟨f, hd, c, hf, rfl⟩ | ⟨e, hd, c, rfl⟩ := fparse_cases h
    · exact .frame hf
    · exact .noFrame
  | fdecode =>
    obtain ⟨lay, hlay, -, rfl⟩ | ⟨e, n, rfl⟩ := fdecode_cases h
    · obtain ⟨-, -, hsize, -⟩ := layoutCheck_ok hlay
      exact .record (wf_ofBytes 0 _) (below_ofBytes _ 0 (by simp; omega))
    · exact .record rfl rfl
  | ipush b =>
    obtain ⟨hlen, rfl⟩ | ⟨hfull, rfl⟩ := ipush_cases h
    · exact .push hlen
    · exact .overflow hfull
  | iclr =>
    obtain rfl := iclr_cases h
    exact .clearInput
  | fprobe =>
    obtain rfl := fprobe_cases h
    exact .channel rfl
  | lsize =>
    obtain ⟨e, n, rfl⟩ := lsize_cases h
    exact .channel rfl
  | illegalZero | illegalSeven | illegalHigh | illegalMbz =>
    obtain rfl := illegal_cases h
    exact .channel rfl

/-- Every instruction answers a next state: an error of a command is one too (60_exceptions.md R172). -/
theorem exec_total (i : Instr) (s : State) : ∃ t, exec i s = .next t := by
  cases i with
  | fbuild => simp only [exec, execFbuild]; split <;> exact ⟨_, rfl⟩
  | fparse => simp only [exec, execFparse]; split <;> exact ⟨_, rfl⟩
  | lsize => simp only [exec, execLsize]; split <;> exact ⟨_, rfl⟩
  | ipush b => simp only [exec, execIpush]; split <;> exact ⟨_, rfl⟩
  | fdecode =>
    simp only [exec, execFdecode]
    split
    · exact ⟨_, rfl⟩
    · split <;> exact ⟨_, rfl⟩
  | fencode =>
    simp only [exec, execFencode]
    split
    · exact ⟨_, rfl⟩
    · split <;> exact ⟨_, rfl⟩
  | fprobe | illegalZero | illegalSeven | illegalHigh | illegalMbz | iclr => exact ⟨_, rfl⟩

/-! ## Stores -/

/-- A store leaves the buffers, the frame registers and the flags FVALID and IOVF as they are. -/
theorem writeLoc_frame (s : State) (v : Word) (l : Loc) :
    (s.writeLoc v l).fvalid = s.fvalid ∧ (s.writeLoc v l).iovf = s.iovf ∧ (s.writeLoc v l).ibuf = s.ibuf ∧
      (s.writeLoc v l).obuf = s.obuf ∧ (s.writeLoc v l).fpay = s.fpay ∧ (s.writeLoc v l).fhdr = s.fhdr ∧
      (s.writeLoc v l).faddr = s.faddr ∧ (s.writeLoc v l).fcmd = s.fcmd ∧ (s.writeLoc v l).fsum = s.fsum := by
  cases l with
  | rimg i => simp only [State.writeLoc]; split <;> simp
  | _ => simp [State.writeLoc]

/-- A store changes RIMG by at most one byte, below BUF_SIZE (20_memory.md R64). -/
theorem writeLoc_rimg (s : State) (v : Word) (l : Loc) :
    (s.writeLoc v l).rimg = s.rimg ∨ ∃ i b, i < Config.bufSize ∧ (s.writeLoc v l).rimg = s.rimg.write i b := by
  cases l with
  | rimg i =>
    simp only [State.writeLoc]
    split
    · rename_i hin
      exact .inr ⟨i, _, inBuf_iff.mp hin, rfl⟩
    · exact .inl rfl
  | _ => exact .inl rfl

/-! ## Steps -/

/-- What a step does, by the host's oldest pending event. -/
inductive StepCase (s : State) : State → Prop where
  | idle (hp : s.pending = []) : StepCase s s
  | read {a : Addr} {rest : List HostEvent} (hp : s.pending = .read a :: rest) :
      StepCase s { s with pending := rest, answers := s.answers ++ [s.busRead a] }
  | reset {rest : List HostEvent} (hp : s.pending = .reset :: rest) : StepCase s { s with pending := rest }.resetBlock
  | instr {a : Addr} {v : Word} {rest : List HostEvent} {i : Instr} {t : State} (hp : s.pending = .write a v :: rest)
      (hd : decodeWrite a v = .ok i) (he : exec i { s with pending := rest } = .next t) : StepCase s t
  | store {a : Addr} {v : Word} {rest : List HostEvent} {l : Loc} (hp : s.pending = .write a v :: rest)
      (hd : decodeWrite a v = .error (.notACommand l)) : StepCase s ({ s with pending := rest }.writeLoc v l)

theorem step_cases (s : State) : ∃ t, step s = .next t ∧ StepCase s t := by
  cases hp : s.pending with
  | nil => exact ⟨s, step_idle hp, .idle hp⟩
  | cons e rest =>
    rw [step_cons hp]
    cases e with
    | read a => exact ⟨_, rfl, .read hp⟩
    | reset => exact ⟨_, rfl, .reset hp⟩
    | write a v =>
      cases hd : decodeWrite a v with
      | ok i =>
        obtain ⟨t, ht⟩ := exec_total i { s with pending := rest }
        exact ⟨t, (busWrite_instr hd _).trans ht, .instr hp hd ht⟩
      | error r =>
        obtain ⟨l⟩ := r
        exact ⟨_, busWrite_store hd _, .store hp hd⟩

theorem stepCase_of_step {s t : State} (h : step s = .next t) : StepCase s t := by
  obtain ⟨u, hu, hc⟩ := step_cases s
  cases hu.symm.trans h
  exact hc

/-- Settles O7, by the two laws of a step with a bus write pending. -/
theorem stepRunsDecodedInstruction : Obligations.StepRunsDecodedInstruction :=
  fun _ _ _ _ _ hp hd => (step_cons hp).trans (busWrite_instr hd _)

/-! ## The invariant -/

theorem setChannel_inv {s : State} {e : ErrCode} {hd c : Bool} {n : Nat} (h : s.Inv) : (s.setChannel e hd c n).Inv :=
  { h with frame := h.frame }

theorem setOutput_inv {s : State} {bs : List Byte} (h : s.Inv) (hlen : bs.length ≤ Config.bufSize) :
    (s.setOutput bs).Inv :=
  { h with olen := hlen, frame := h.frame }

theorem setInput_inv {s : State} {bs : List Byte} {o : Bool} (h : s.Inv) (hlen : bs.length ≤ Config.bufSize) :
    (s.setInput bs o).Inv :=
  { h with ilen := hlen, frame := h.frame }

theorem setRecord_inv {s : State} {rval : Vector Word 64} {rimg : Memory} {rpres : BitVec 64} (h : s.Inv)
    (hwf : rimg.wf = true) (hbelow : rimg.below Config.bufSize = true) : (s.setRecord rval rimg rpres).Inv :=
  { h with rimg_wf := hwf, rimg_below := hbelow, frame := h.frame }

theorem setFrame_inv {s : State} {f : Frame} (h : s.Inv) (hlen : f.payload.length ≤ Config.maxPayload) :
    (s.setFrame f).Inv :=
  { h with flen := hlen, frame := nofun }

theorem clearFrame_inv {s : State} (h : s.Inv) : s.clearFrame.Inv :=
  { h with flen := Nat.zero_le _, frame := fun _ => ⟨rfl, rfl, rfl, rfl, rfl⟩ }

theorem resetBlock_inv (s : State) : s.resetBlock.Inv :=
  ⟨Nat.zero_le _, Nat.zero_le _, Nat.zero_le _, rfl, rfl, fun _ => ⟨rfl, rfl, rfl, rfl, rfl⟩⟩

/-- The host's side of the bus is no part of the invariant. -/
theorem withHost_inv {s : State} {ps : List HostEvent} {as : List Word} (h : s.Inv) :
    ({ s with pending := ps, answers := as } : State).Inv :=
  { h with frame := h.frame }

theorem exec_keeps_inv {i : Instr} {s t : State} (h : s.Inv) (he : exec i s = .next t) : t.Inv := by
  cases exec_writes he with
  | channel => exact setChannel_inv h
  | output _ hlen => exact setChannel_inv (setOutput_inv h hlen)
  | record hwf hbelow => exact setChannel_inv (setRecord_inv h hwf hbelow)
  | frame hlen => exact setChannel_inv (setFrame_inv h hlen)
  | noFrame => exact setChannel_inv (clearFrame_inv h)
  | push hlen => exact setInput_inv h (by simpa using hlen)
  | overflow => exact setInput_inv h h.ilen
  | clearInput => exact setInput_inv h (Nat.zero_le _)

theorem writeLoc_keeps_inv {s : State} (h : s.Inv) (v : Word) (l : Loc) : (s.writeLoc v l).Inv := by
  obtain ⟨hfvalid, -, hibuf, hobuf, hfpay, hfhdr, hfaddr, hfcmd, hfsum⟩ := writeLoc_frame s v l
  have hrimg : (s.writeLoc v l).rimg.wf = true ∧ (s.writeLoc v l).rimg.below Config.bufSize = true := by
    obtain hr | ⟨i, b, hi, hr⟩ := writeLoc_rimg s v l
    · exact hr ▸ ⟨h.rimg_wf, h.rimg_below⟩
    · exact hr ▸ ⟨wf_write h.rimg_wf, below_write hi h.rimg_below⟩
  refine ⟨hibuf ▸ h.ilen, hobuf ▸ h.olen, hfpay ▸ h.flen, hrimg.1, hrimg.2, ?_⟩
  simpa only [State.FrameWhole, hfpay, hfhdr, hfaddr, hfcmd, hfsum, hfvalid] using h.frame

theorem stepCase_keeps_inv {s t : State} (h : s.Inv) (hc : StepCase s t) : t.Inv := by
  cases hc with
  | idle => exact h
  | read => exact withHost_inv h
  | reset => exact resetBlock_inv _
  | instr _ _ he => exact exec_keeps_inv (withHost_inv h) he
  | store => exact writeLoc_keeps_inv (withHost_inv h) _ _

/-- Settles O59: each kind of event keeps the invariant, and a next state there always is. -/
theorem everyStepKeepsInvariant : Obligations.EveryStepKeepsInvariant := by
  intro s h
  obtain ⟨t, ht, hc⟩ := step_cases s
  exact ⟨t, ht, stepCase_keeps_inv h hc⟩

end Sys2Proof.Proofs
end

section
/-! PROOFS. Who writes the STATUS flags, and what the host reads in STATUS, INFO and the other read-only registers
(10_state.md R25-R27, R32-R34). -/

namespace Sys2Proof.Proofs

open Sys2Proof Sys2Proof.Machine Sys2Proof.Laws

/-! ## Which bus write starts an instruction (20_memory.md R66; 30_encoding.md R81) -/

theorem decodeWrite_ok {a : Addr} {v : Word} {i : Instr} (h : decodeWrite a v = .ok i) :
    (locate a = .cmd ∧ i = decodeCmd v) ∨ (locate a = .ipush ∧ i = .ipush (v.extractLsb' 0 8)) ∨
      (locate a = .iclr ∧ i = .iclr) := by
  unfold decodeWrite at h
  split at h
  · rename_i hl; cases h; exact .inl ⟨hl, rfl⟩
  · rename_i hl; cases h; exact .inr (.inl ⟨hl, rfl⟩)
  · rename_i hl; cases h; exact .inr (.inr ⟨hl, rfl⟩)
  · cases h

/-- A CMD word with bits 31:4 zero is its OP field. -/
theorem toNat_of_high_zero {v : Word} (h : v.extractLsb' 4 28 = 0) : v.toNat = (v.extractLsb' 0 4).toNat := by
  have hhigh := congrArg BitVec.toNat h
  simp only [BitVec.extractLsb'_toNat, Nat.shiftRight_eq_div_pow] at hhigh ⊢
  simp at hhigh
  have := v.isLt
  omega

theorem decodeCmd_eq_fparse {v : Word} (h : decodeCmd v = .fparse) : v = 3 := by
  unfold decodeCmd at h
  split at h
  · cases h
  · rename_i hhigh
    have hv := toNat_of_high_zero (by simpa using hhigh)
    split at h <;> cases h
    rename_i hop
    exact BitVec.eq_of_toNat_eq (hv.trans hop)

theorem decodeWrite_eq_fparse {a : Addr} {v : Word} (h : decodeWrite a v = .ok .fparse) : locate a = .cmd ∧ v = 3 := by
  obtain ⟨hl, hi⟩ | ⟨-, hi⟩ | ⟨-, hi⟩ := decodeWrite_ok h
  · exact ⟨hl, decodeCmd_eq_fparse hi.symm⟩
  · cases hi
  · cases hi

theorem decodeCmd_isCommand (v : Word) : (decodeCmd v).isCommand = true := by
  unfold decodeCmd
  split
  · rfl
  · split <;> rfl

theorem locate_of_not_command {a : Addr} {v : Word} {i : Instr} (h : decodeWrite a v = .ok i)
    (hi : i.isCommand = false) : locate a = .ipush ∨ locate a = .iclr := by
  obtain ⟨-, rfl⟩ | ⟨hl, -⟩ | ⟨hl, -⟩ := decodeWrite_ok h
  · rw [decodeCmd_isCommand] at hi; cases hi
  · exact .inl hl
  · exact .inr hl

/-! ## Which instruction writes a flag (R25) -/

/-- Only FPARSE reports a header or a checksum that is right. -/
theorem exec_clears_frame_flags {i : Instr} {s t : State} (h : exec i s = .next t) (hi : i.isCommand = true)
    (hne : i ≠ .fparse) : t.hdrOk = false ∧ t.csumOk = false := by
  cases exec_writes h with
  | channel | output | record => exact ⟨rfl, rfl⟩
  | frame | noFrame => exact absurd rfl hne
  | push | overflow | clearInput => cases hi

theorem exec_fvalid {i : Instr} {s t : State} (h : exec i s = .next t) (hne : i ≠ .fparse) : t.fvalid = s.fvalid := by
  cases exec_writes h with
  | channel | output | record | push | overflow | clearInput => rfl
  | frame | noFrame => exact absurd rfl hne

theorem exec_iovf {i : Instr} {s t : State} (h : exec i s = .next t) (hi : i.isCommand = true) : t.iovf = s.iovf := by
  cases exec_writes h with
  | channel | output | record | frame | noFrame => rfl
  | push | overflow | clearInput => cases hi

theorem step_fvalid {s t : State} (h : step s = .next t) (hne : t.fvalid ≠ s.fvalid) :
    (∃ a rest, s.pending = .write a 3 :: rest ∧ locate a = .cmd) ∨ ∃ rest, s.pending = .reset :: rest := by
  cases stepCase_of_step h with
  | idle | read => exact absurd rfl hne
  | reset hp => exact .inr ⟨_, hp⟩
  | @instr a v rest i _ hp hd he =>
    have hi : i = .fparse := not_imp_comm.mp (exec_fvalid he) hne
    subst hi
    obtain ⟨hl, rfl⟩ := decodeWrite_eq_fparse hd
    exact .inl ⟨a, rest, hp, hl⟩
  | store =>
    obtain ⟨hfvalid, -⟩ := writeLoc_frame _ _ _
    exact absurd hfvalid hne

theorem step_iovf {s t : State} (h : step s = .next t) (hne : t.iovf ≠ s.iovf) :
    (∃ a v rest, s.pending = .write a v :: rest ∧ (locate a = .ipush ∨ locate a = .iclr)) ∨
      ∃ rest, s.pending = .reset :: rest := by
  cases stepCase_of_step h with
  | idle | read => exact absurd rfl hne
  | reset hp => exact .inr ⟨_, hp⟩
  | @instr a v rest i _ hp hd he =>
    have hi : i.isCommand = false := Bool.eq_false_iff.mpr fun hc => absurd (exec_iovf he hc) hne
    exact .inl ⟨a, v, rest, hp, locate_of_not_command hd hi⟩
  | store =>
    obtain ⟨-, hiovf, -⟩ := writeLoc_frame _ _ _
    exact absurd hiovf hne

/-- Settles O52: each clause from what an instruction can write. -/
theorem statusFlagWriters : Obligations.StatusFlagWriters :=
  ⟨fun _ _ _ => exec_clears_frame_flags, fun _ _ => step_fvalid, fun _ _ => step_iovf⟩

/-! ## The read-only registers -/

theorem busRead_status (s : State) : s.busRead 0x0008 = s.statusWord := rfl

theorem statusWord_bits (s : State) :
    s.statusWord.extractLsb' 0 4 = s.err.code ∧ s.statusWord.getLsbD 4 = s.hdrOk ∧ s.statusWord.getLsbD 5 = s.csumOk ∧
      s.statusWord.extractLsb' 6 2 = 0 ∧ s.statusWord.getLsbD 8 = s.fvalid ∧ s.statusWord.getLsbD 9 = s.iovf ∧
      s.statusWord.extractLsb' 10 22 = 0 := by
  simp only [State.statusWord, BitVec.extractLsb'_append_eq_ite, BitVec.getLsbD_append]
  simp

/-- A narrow register is read whole, in the low bits of the word. -/
theorem toNat_register {w : Nat} (hw : w ≤ 32) (x : BitVec w) : (x.setWidth 32).toNat = x.toNat :=
  BitVec.toNat_setWidth_of_le hw

/-- A buffer's valid count fits in the word that shows it. -/
theorem toNat_count {n : Nat} (h : n ≤ 1024) : (BitVec.ofNat 32 n).toNat = n :=
  Nat.mod_eq_of_lt (by omega)

/-- Settles O15: STATUS bit by bit, then each register at its address. -/
theorem statusRegisterFields : Obligations.StatusRegisterFields := by
  intro s
  obtain ⟨herr, hhdr, hcsum, hlow, hfvalid, hiovf, hhigh⟩ := statusWord_bits s
  rw [busRead_status]
  refine ⟨herr, hhdr, hcsum, hlow, hfvalid, hiovf, hhigh, rfl, rfl, rfl, rfl, rfl, rfl, rfl, rfl, rfl, rfl,
    toNat_register (by decide) s.result, toNat_register (by decide) s.fhdr, toNat_register (by decide) s.faddr,
    toNat_register (by decide) s.fcmd, toNat_register (by decide) s.fsum, fun h => ?_⟩
  exact ⟨toNat_count (h.ilen.trans bufSize_le), toNat_count (h.olen.trans bufSize_le),
    toNat_count (h.flen.trans (by decide))⟩

/-! ## INFO (R27) -/

theorem busRead_info (s : State) : s.busRead 0x0050 = infoWord := rfl

/-- BUF_SIZE fits in INFO's bits 15:0. -/
theorem infoWord_bufSize : (infoWord.extractLsb' 0 16).toNat = Config.bufSize := by
  have hle := bufSize_le
  unfold infoWord
  rw [BitVec.extractLsb'_append_eq_right, BitVec.toNat_ofNat]
  omega

/-- The fields above BUF_SIZE, which do not depend on its value. -/
theorem infoWord_upper_bits :
    infoWord.extractLsb' 16 8 = 64 ∧ (infoWord.getLsbD 24 = true ↔ Config.nativeOrder = .le) ∧
      infoWord.extractLsb' 25 3 = 0 ∧ infoWord.extractLsb' 28 4 = 1 := by
  have horder : (Config.nativeOrder == .le) = true ↔ Config.nativeOrder = .le := beq_iff_eq
  unfold infoWord Config.maxFields
  rw [← horder]
  generalize BitVec.ofNat 16 Config.bufSize = size
  generalize (Config.nativeOrder == .le) = le
  simp only [BitVec.extractLsb'_append_eq_ite, BitVec.getLsbD_append]
  simp

/-- Settles O16, field by field of INFO; a write to it stores nothing. -/
theorem infoShowsTheParameters : Obligations.InfoShowsTheParameters := by
  intro s v
  obtain ⟨hfields, horder, hreserved, hversion⟩ := infoWord_upper_bits
  rw [busRead_info]
  exact ⟨infoWord_bufSize, bufSize_ge, bufSize_le, hfields, horder, hreserved, hversion, rfl⟩

end Sys2Proof.Proofs
end

section
/-! PROOFS. The address map on word addresses: where each array of locations lies, that `addr` is its inverse, and that
address bits 1:0 do not matter (20_memory.md R61, R62; 30_encoding.md R94). -/

namespace Sys2Proof.Proofs

open Sys2Proof Sys2Proof.Machine Sys2Proof.Laws

/-! ## Word addresses (R61) -/

/-- `a & 0xFFFC` is the byte address of the word `a` lies in. -/
theorem wordAddr_eq (a : Addr) : a &&& 0xFFFC = BitVec.ofNat 16 (4 * (a.toNat / 4)) := by
  have hmask : ∀ i < 16, (0xFFFC : Addr).getLsbD i = decide (2 ≤ i) := by decide
  have hword : a &&& (0xFFFC : Addr) = (a >>> 2) <<< 2 := by
    refine BitVec.eq_of_getLsbD_eq fun i hi => ?_
    rw [BitVec.getLsbD_and, hmask i hi, BitVec.getLsbD_shiftLeft, BitVec.getLsbD_ushiftRight]
    by_cases h : 2 ≤ i
    · simp only [h, hi, decide_true, Bool.and_true, Bool.true_and, Nat.not_lt.mpr h, decide_false, Bool.not_false,
        Nat.add_sub_cancel' h]
    · simp [h, Nat.lt_of_not_le h]
  rw [hword]
  refine BitVec.eq_of_toNat_eq ?_
  simp [BitVec.toNat_shiftLeft, Nat.shiftRight_eq_div_pow, Nat.shiftLeft_eq, Nat.mul_comm]

theorem locate_wordAddr (a : Addr) : locate (a &&& 0xFFFC) = locate a := by
  have := a.isLt
  have hword : (a &&& 0xFFFC).toNat / 4 = a.toNat / 4 := by
    rw [wordAddr_eq, BitVec.toNat_ofNat]
    omega
  rw [locate, hword, locate]

/-! ## The arrays of the map (R62) -/

/-- The map past its single registers, which end at INFO. -/
theorem locateWord_of_gt {k : Nat} (h : 20 < k) : locateWord k =
    if k < 0x40 then .unmapped
    else if k < 0x80 then .layout (Fin.ofNat 64 (k - 0x40))
    else if k < 0xC0 then .rval (Fin.ofNat 64 (k - 0x80))
    else if k < 0x100 then .unmapped
    else if k < 0x200 then .fpay (k - 0x100)
    else if k < 0x400 then .unmapped
    else if k < 0x800 then .obuf (k - 0x400)
    else if k < 0xC00 then .rimg (k - 0x800)
    else if k < 0x1000 then .ibuf (k - 0xC00)
    else .unmapped := by
  obtain ⟨j, rfl⟩ : ∃ j, k = j + 21 := ⟨k - 21, by omega⟩
  rfl

/-- Entry `i` of an array whose words begin at word `k`. -/
theorem locate_entry {base k i : Nat} (hbase : base = 4 * k) (h : k + i < 0x4000) :
    locate (BitVec.ofNat 16 (base + 4 * i)) = locateWord (k + i) := by
  rw [locate, BitVec.toNat_ofNat]
  congr 1
  omega

theorem locate_layout (i : Fin 64) : locate (BitVec.ofNat 16 (0x0100 + 4 * i.val)) = .layout i := by
  rw [locate_entry (k := 0x40) rfl (by omega), locateWord_of_gt (by omega)]
  rw [if_neg (by omega), if_pos (by omega), Nat.add_sub_cancel_left, Fin.ofNat_val_eq_self]

theorem locate_rval (i : Fin 64) : locate (BitVec.ofNat 16 (0x0200 + 4 * i.val)) = .rval i := by
  rw [locate_entry (k := 0x80) rfl (by omega), locateWord_of_gt (by omega)]
  iterate 2 rw [if_neg (by omega)]
  rw [if_pos (by omega), Nat.add_sub_cancel_left, Fin.ofNat_val_eq_self]

theorem locate_fpay {i : Nat} (h : i < 256) : locate (BitVec.ofNat 16 (0x0400 + 4 * i)) = .fpay i := by
  rw [locate_entry (k := 0x100) rfl (by omega), locateWord_of_gt (by omega)]
  iterate 4 rw [if_neg (by omega)]
  rw [if_pos (by omega), Nat.add_sub_cancel_left]

theorem locate_obuf {i : Nat} (h : i < 1024) : locate (BitVec.ofNat 16 (0x1000 + 4 * i)) = .obuf i := by
  rw [locate_entry (k := 0x400) rfl (by omega), locateWord_of_gt (by omega)]
  iterate 6 rw [if_neg (by omega)]
  rw [if_pos (by omega), Nat.add_sub_cancel_left]

theorem locate_rimg {i : Nat} (h : i < 1024) : locate (BitVec.ofNat 16 (0x2000 + 4 * i)) = .rimg i := by
  rw [locate_entry (k := 0x800) rfl (by omega), locateWord_of_gt (by omega)]
  iterate 7 rw [if_neg (by omega)]
  rw [if_pos (by omega), Nat.add_sub_cancel_left]

theorem locate_ibuf {i : Nat} (h : i < 1024) : locate (BitVec.ofNat 16 (0x3000 + 4 * i)) = .ibuf i := by
  rw [locate_entry (k := 0xC00) rfl (by omega), locateWord_of_gt (by omega)]
  iterate 8 rw [if_neg (by omega)]
  rw [if_pos (by omega), Nat.add_sub_cancel_left]

/-! ## The map and `addr` are inverse -/

theorem locate_addrOf {l : Loc} {a : Addr} (h : addrOf l = some a) : locate a = l := by
  cases l with
  | layout i => cases h; exact locate_layout i
  | rval i => cases h; exact locate_rval i
  | fpay i => obtain ⟨hi, ha⟩ := Option.ite_none_right_eq_some.mp h; cases ha; exact locate_fpay hi
  | obuf i => obtain ⟨hi, ha⟩ := Option.ite_none_right_eq_some.mp h; cases ha; exact locate_obuf hi
  | rimg i => obtain ⟨hi, ha⟩ := Option.ite_none_right_eq_some.mp h; cases ha; exact locate_rimg hi
  | ibuf i => obtain ⟨hi, ha⟩ := Option.ite_none_right_eq_some.mp h; cases ha; exact locate_ibuf hi
  | unmapped => cases h
  | _ => cases h; rfl

/-- A location that the map may find at word `k`: one whose address is that word's, or unmapped. -/
def AtWord (k : Nat) (l : Loc) : Prop := l = .unmapped ∨ addrOf l = some (BitVec.ofNat 16 (4 * k))

theorem AtWord.unmapped {k : Nat} : AtWord k .unmapped := .inl rfl

theorem AtWord.entry {k base i : Nat} {l : Loc} (hl : addrOf l = some (BitVec.ofNat 16 (base + 4 * i)))
    (hi : base + 4 * i = 4 * k) : AtWord k l := .inr (hi ▸ hl)

theorem AtWord.ite {k : Nat} {c : Prop} [Decidable c] {l l' : Loc} (h : c → AtWord k l) (h' : ¬c → AtWord k l') :
    AtWord k (if c then l else l') := iteInduction h h'

theorem addrOf_fpay {i : Nat} (h : i < 256) : addrOf (.fpay i) = some (BitVec.ofNat 16 (0x0400 + 4 * i)) :=
  if_pos h

theorem addrOf_obuf {i : Nat} (h : i < 1024) : addrOf (.obuf i) = some (BitVec.ofNat 16 (0x1000 + 4 * i)) :=
  if_pos h

theorem addrOf_rimg {i : Nat} (h : i < 1024) : addrOf (.rimg i) = some (BitVec.ofNat 16 (0x2000 + 4 * i)) :=
  if_pos h

theorem addrOf_ibuf {i : Nat} (h : i < 1024) : addrOf (.ibuf i) = some (BitVec.ofNat 16 (0x3000 + 4 * i)) :=
  if_pos h

theorem locateWord_atWord (k : Nat) : AtWord k (locateWord k) := by
  by_cases hk : 20 < k
  · rw [locateWord_of_gt hk]
    exact
      .ite (fun _ => .unmapped) fun _ =>
      .ite (fun _ => .entry rfl (by rw [Fin.val_ofNat]; omega)) fun _ =>
      .ite (fun _ => .entry rfl (by rw [Fin.val_ofNat]; omega)) fun _ =>
      .ite (fun _ => .unmapped) fun _ =>
      .ite (fun _ => .entry (addrOf_fpay (by omega)) (by omega)) fun _ =>
      .ite (fun _ => .unmapped) fun _ =>
      .ite (fun _ => .entry (addrOf_obuf (by omega)) (by omega)) fun _ =>
      .ite (fun _ => .entry (addrOf_rimg (by omega)) (by omega)) fun _ =>
      .ite (fun _ => .entry (addrOf_ibuf (by omega)) (by omega)) fun _ => .unmapped
  · interval_cases k <;> exact .inr rfl

theorem addrOf_locate {a : Addr} (h : locate a ≠ .unmapped) : addrOf (locate a) = some (a &&& 0xFFFC) := by
  rw [wordAddr_eq]
  exact (locateWord_atWord _).resolve_left h

theorem wordAddr_of_locate {a b : Addr} {l : Loc} (hl : locate a = l) (hb : addrOf l = some b) : b = a &&& 0xFFFC := by
  subst hl
  have hmapped : locate a ≠ .unmapped := fun hl => by rw [hl] at hb; cases hb
  exact Option.some.inj (hb.symm.trans (addrOf_locate hmapped))

/-- Settles O5: the map inverts `addr`, and `addr` inverts the map up to the word. -/
theorem addressMapIsInverted : Obligations.AddressMapIsInverted :=
  ⟨fun _ _ ha => ⟨locate_addrOf ha, fun _ hb => (wordAddr_of_locate hb ha).symm⟩, fun _ => addrOf_locate⟩

end Sys2Proof.Proofs
end

section
/-! PROOFS. What a bus transfer does: it is answered at its word address, the decoder and the encoder agree, and a write
that starts no instruction stores (20_memory.md R61, R65, R66; 30_encoding.md R81). -/

namespace Sys2Proof.Proofs

open Sys2Proof Sys2Proof.Machine Sys2Proof.Laws

/-! ## Every transfer is answered, at its word address (R61) -/

theorem busRead_wordAddr (s : State) (a : Addr) : s.busRead (a &&& 0xFFFC) = s.busRead a := by
  rw [State.busRead, locate_wordAddr, State.busRead]

theorem busWrite_wordAddr (a : Addr) (v : Word) (s : State) : busWrite (a &&& 0xFFFC) v s = busWrite a v s := by
  simp only [busWrite, decodeWrite, locate_wordAddr]

theorem busWrite_total (a : Addr) (v : Word) (s : State) : ∃ t, busWrite a v s = .next t := by
  rcases hd : decodeWrite a v with ⟨⟨l⟩⟩ | i
  · exact ⟨_, busWrite_store hd s⟩
  · rw [busWrite_instr hd]
    exact exec_total i s

/-- Settles O9: both transfers see the address through the map only. -/
theorem misalignedTransfersActOnTheWord : Obligations.MisalignedTransfersActOnTheWord := fun s a v =>
  ⟨(busRead_wordAddr s a).symm, (busWrite_wordAddr a v s).symm, busWrite_total a v s⟩

/-- Settles O8, by the two laws of a step without a write pending. -/
theorem readsChangeNothing : Obligations.ReadsChangeNothing := fun _ _ _ => ⟨step_cons, step_idle⟩

/-- Settles O60: whatever is pending, one of the cases of a step applies. -/
theorem nothingStopsTheBlock : Obligations.NothingStopsTheBlock := fun s =>
  let ⟨t, ht, _⟩ := step_cases s
  ⟨t, ht⟩

/-! ## Decoding and encoding (30_encoding.md R81) -/

theorem decodeCmd_wf (v : Word) : (decodeCmd v).wf = true := by
  unfold decodeCmd
  split
  · assumption
  · split <;> rfl

/-- The words 8 to 15 are 1 in bits 31:3 and any bits 2:0. -/
theorem reserved_high_word {v : Word} (hge : 8 ≤ v.toNat) (hlt : v.toNat < 16) :
    (1 : BitVec 29) ++ v.extractLsb' 0 3 = v := by
  refine BitVec.eq_of_toNat_eq ?_
  rw [BitVec.toNat_append, ← Nat.shiftLeft_add_eq_or_of_lt (BitVec.isLt _), BitVec.extractLsb'_toNat]
  simp
  omega

theorem encode_decodeCmd (v : Word) : encode (decodeCmd v) = ⟨0x0004, v⟩ := by
  unfold decodeCmd
  split
  · rfl
  · rename_i hhigh
    have hv := toNat_of_high_zero (by simpa using hhigh)
    have hlt := (v.extractLsb' 0 4).isLt
    split
    case h_9 => exact congrArg (BusWrite.mk 0x0004) (reserved_high_word (by grind) (by omega))
    all_goals
      rename_i hop
      exact congrArg (BusWrite.mk 0x0004) (BitVec.eq_of_toNat_eq (hv.trans hop).symm)

/-- The low `n` bits of a word, read back as a word, are the word under the mask of those bits. -/
theorem low_bits {n : Nat} (v : Word) (hn : n ≤ 32) :
    (v.extractLsb' 0 n).setWidth 32 = v &&& BitVec.ofNat 32 (2 ^ n - 1) := by
  have hpow : 2 ^ n - 1 < 2 ^ 32 := Nat.sub_one_lt_of_le (Nat.two_pow_pos n) (Nat.pow_le_pow_right (by decide) hn)
  refine BitVec.eq_of_toNat_eq ?_
  rw [BitVec.toNat_and, BitVec.toNat_ofNat, Nat.mod_eq_of_lt hpow, Nat.and_two_pow_sub_one_eq_mod, toNat_register hn,
    BitVec.extractLsb'_toNat, Nat.shiftRight_zero]

/-- Settles O2, for a write to each of the three registers that start an instruction. -/
theorem encodeDecodeAgree : Obligations.EncodeDecodeAgree := by
  intro a v i hd
  obtain ⟨hl, rfl⟩ | ⟨hl, rfl⟩ | ⟨hl, rfl⟩ := decodeWrite_ok hd <;> rw [hl]
  · rw [encode_decodeCmd]
    exact ⟨decodeCmd_wf v, wordAddr_of_locate hl rfl, fun _ => rfl, nofun⟩
  · exact ⟨rfl, wordAddr_of_locate hl rfl, nofun, fun _ => low_bits (n := 8) v (by decide)⟩
  · exact ⟨rfl, wordAddr_of_locate hl rfl, nofun, nofun⟩

/-! ## Stores (R65) -/

/-- Only the write-only registers start an instruction; a write to any other location stores. -/
theorem busWrite_of_locate {a : Addr} {l : Loc} (hl : locate a = l) (hacc : l.access ≠ .writeOnly) (v : Word)
    (s : State) : busWrite a v s = .next (s.writeLoc v l) := by
  subst hl
  cases hd : decodeWrite a v with
  | ok i => obtain ⟨hl, -⟩ | ⟨hl, -⟩ | ⟨hl, -⟩ := decodeWrite_ok hd <;> exact absurd (hl ▸ rfl) hacc
  | error r =>
    obtain ⟨l⟩ := r
    obtain ⟨rfl, -⟩ := decodeWrite_error hd
    exact busWrite_store hd s

/-- Settles O11, register by register. -/
theorem registerWritesStoreTheirFields : Obligations.RegisterWritesStoreTheirFields := fun s v =>
  ⟨rfl, rfl, rfl, rfl, rfl, rfl, rfl, rfl, fun i =>
    ⟨busWrite_of_locate (locate_layout i) nofun v s, busWrite_of_locate (locate_rval i) nofun v s⟩⟩

end Sys2Proof.Proofs
end

section
/-! PROOFS. The input buffer: IPUSH, ICLR, and a whole refill (20_memory.md R67, R68, R71). -/

namespace Sys2Proof.Proofs

open Sys2Proof Sys2Proof.Machine Sys2Proof.Laws

theorem exec_ipush_of_room {s : State} (h : s.ibuf.length < Config.bufSize) (b : Byte) :
    exec (.ipush b) s = .next (s.setInput (s.ibuf ++ [b]) s.iovf) := if_pos (inBuf_iff.mpr h)

theorem exec_ipush_of_full {s : State} (h : Config.bufSize ≤ s.ibuf.length) (b : Byte) :
    exec (.ipush b) s = .next (s.setInput s.ibuf true) :=
  if_neg (mt inBuf_iff.mp (by omega))

theorem busWrite_ipush (v : Word) (s : State) : busWrite 0x0024 v s = exec (.ipush (v.extractLsb' 0 8)) s := rfl

/-- Settles O17, on the two sides of a full IBUF. -/
theorem ipushAppendsOrOverflows : Obligations.IpushAppendsOrOverflows := fun s b v =>
  ⟨fun h => exec_ipush_of_room h b, fun h => exec_ipush_of_full h b, busWrite_ipush v s⟩

/-- Settles O18: ICLR looks at neither the data nor the state. -/
theorem iclrEmptiesInput : Obligations.IclrEmptiesInput := fun _ _ => ⟨rfl, rfl⟩

theorem run_succ_of_step {s t : core.State} (h : core.step s = .next t) (k : Nat) :
    core.run (k + 1) s = core.run k t := by
  rw [Host.Core.run, h]

theorem step_ipush {s : State} {b : Byte} {rest : List HostEvent}
    (hp : s.pending = .write 0x0024 (b.setWidth 32) :: rest) (hroom : s.ibuf.length < Config.bufSize) :
    step s = .next { s with ibuf := s.ibuf ++ [b], pending := rest } := by
  have hb : (b.setWidth 32).extractLsb' 0 8 = b :=
    (BitVec.extractLsb'_setWidth_of_le (by decide)).trans BitVec.extractLsb'_eq_self
  rw [step_cons hp, accept, busWrite_ipush, hb]
  exact exec_ipush_of_room (s := { s with pending := rest }) hroom b

/-- One IPUSH for each byte that fits appends the bytes, in order. -/
theorem run_pushes {s : State} {bs : List Byte} (hfit : s.ibuf.length + bs.length ≤ Config.bufSize)
    (hp : s.pending = bs.map fun b => .write 0x0024 (b.setWidth 32)) :
    core.run bs.length s = .next { s with ibuf := s.ibuf ++ bs, pending := [] } := by
  induction bs generalizing s with
  | nil =>
    rw [List.append_nil, ← show s.pending = [] from hp]
    rfl
  | cons b bs ih =>
    rw [List.length_cons] at hfit
    rw [List.length_cons, run_succ_of_step (step_ipush hp (by omega)), ih (by simp; omega) rfl]
    simp

/-- Settles O19: ICLR leaves an empty IBUF, with room for all of the bytes pushed after it. -/
theorem clearThenPushesFillInput : Obligations.ClearThenPushesFillInput := by
  intro s bs hfit hp
  have hclear : step s = .next { s with ibuf := [], iovf := false, pending := _ } := step_cons hp
  rw [run_succ_of_step hclear]
  exact run_pushes (by simpa using hfit) rfl

end Sys2Proof.Proofs
end

section
/-! PROOFS. What the host can see and change at each location: reserved bits, write-only and unmapped locations, the
read-back of a stored value, and the windows (20_memory.md R63, R64, R65, R71). -/

namespace Sys2Proof.Proofs

open Sys2Proof Sys2Proof.Machine Sys2Proof.Laws

/-! ## Masks -/

theorem and_not_eq_zero {x m : Word} (h : ∀ i < 32, m.getLsbD i = false → x.getLsbD i = false) : x &&& ~~~m = 0 := by
  refine BitVec.eq_of_getLsbD_eq fun i hi => ?_
  cases hm : m.getLsbD i with
  | true => simp [hm]
  | false => simp [h i hi hm]

/-- A number below `2 ^ n` has no bit outside a mask that has bits `n-1:0`. -/
theorem and_not_eq_zero_of_lt {x m : Word} {n : Nat} (hlt : x.toNat < 2 ^ n)
    (hm : ∀ i < 32, m.getLsbD i = false → n ≤ i) : x &&& ~~~m = 0 :=
  and_not_eq_zero fun i hi hb =>
    Nat.testBit_lt_two_pow (hlt.trans_le (Nat.pow_le_pow_right (by decide) (hm i hi hb)))

theorem getLsbD_of_extract_eq_zero {x : Word} {lo n : Nat} (h : x.extractLsb' lo n = 0) {i : Nat} (hlo : lo ≤ i)
    (hi : i < lo + n) : x.getLsbD i = false := by
  have hbit := congrArg (fun y => y.getLsbD (i - lo)) h
  simpa [Nat.add_sub_cancel' hlo, show i - lo < n by omega] using hbit

theorem and_full (v : Word) : v &&& 0xFFFFFFFF = v := BitVec.and_allOnes

/-- A mask that has bits `n-1:0` keeps the field they hold. -/
theorem extractLsb'_and_mask {n : Nat} {m : Word} (hm : m.extractLsb' 0 n = BitVec.allOnes n) (v : Word) :
    (v &&& m).extractLsb' 0 n = v.extractLsb' 0 n := by
  rw [BitVec.extractLsb'_and, hm, BitVec.and_allOnes]

/-! ## Reads (R63) -/

theorem readLoc_of_not_readable (s : State) {l : Loc} (h : l.access = .unmapped ∨ l.access = .writeOnly) :
    s.readLoc l = 0 := by
  cases l with
  | cmd | ipush | iclr | unmapped => rfl
  | _ => simp [Loc.access] at h

theorem register_reserved {w : Nat} (hw : w ≤ 32) (x : BitVec w) {m : Word}
    (hm : ∀ i < 32, m.getLsbD i = false → w ≤ i) : x.setWidth 32 &&& ~~~m = 0 :=
  and_not_eq_zero_of_lt ((toNat_register hw x).trans_lt x.isLt) hm

theorem word_reserved (x : Word) : x &&& ~~~(0xFFFFFFFF : Word) = 0 := and_not_eq_zero_of_lt x.isLt (by decide)

theorem byte_reserved (b : Byte) : b.setWidth 32 &&& ~~~(0xFF : Word) = 0 := register_reserved (by decide) b (by decide)

theorem windowWord_reserved (B : List Byte) (i : Nat) : windowWord B i &&& ~~~(0xFF : Word) = 0 := by
  unfold windowWord
  split
  · exact byte_reserved _
  · rfl

/-- A valid count of at most BUF_SIZE lies in bits 10:0. -/
theorem count_reserved {n : Nat} (h : n ≤ Config.bufSize) : BitVec.ofNat 32 n &&& ~~~(0x7FF : Word) = 0 := by
  have hn : n ≤ 1024 := h.trans bufSize_le
  exact and_not_eq_zero_of_lt (n := 11) ((toNat_count hn).trans_lt (by omega)) (by decide)

theorem ctrlWord_reserved (s : State) : s.ctrlWord &&& ~~~(3 : Word) = 0 := by
  have hlt : ∀ vh vc : Bool, ((0 : BitVec 30) ++ BitVec.ofBool vh ++ BitVec.ofBool vc).toNat < 2 ^ 2 := by decide
  exact and_not_eq_zero_of_lt (hlt s.vh s.vc) (by decide)

theorem statusWord_reserved (s : State) : s.statusWord &&& ~~~(0x33F : Word) = 0 := by
  obtain ⟨-, -, -, hlow, -, -, hhigh⟩ := statusWord_bits s
  have hbits : ∀ i < 32, (0x33F : Word).getLsbD i = false → (6 ≤ i ∧ i < 6 + 2) ∨ (10 ≤ i ∧ i < 10 + 22) := by decide
  refine and_not_eq_zero fun i hi hb => ?_
  obtain ⟨hlo, hi⟩ | ⟨hlo, hi⟩ := hbits i hi hb
  · exact getLsbD_of_extract_eq_zero hlow hlo hi
  · exact getLsbD_of_extract_eq_zero hhigh hlo hi

theorem infoWord_reserved : infoWord &&& ~~~(0xF1FFFFFF : Word) = 0 := by
  obtain ⟨-, -, hreserved, -⟩ := infoWord_upper_bits
  have hbits : ∀ i < 32, (0xF1FFFFFF : Word).getLsbD i = false → 25 ≤ i ∧ i < 25 + 3 := by decide
  refine and_not_eq_zero fun i hi hb => ?_
  obtain ⟨hlo, hi⟩ := hbits i hi hb
  exact getLsbD_of_extract_eq_zero hreserved hlo hi

theorem readLoc_reserved {s : State} (h : s.Inv) (l : Loc) : s.readLoc l &&& ~~~l.definedBits = 0 := by
  cases l with
  | cmd | ipush | iclr | unmapped => exact BitVec.zero_and
  | ctrl => exact ctrlWord_reserved s
  | status => exact statusWord_reserved s
  | info => exact infoWord_reserved
  | result | hdrExp | bhdr | fhdr => exact register_reserved (by decide) _ (by decide)
  | baddr | bcmd | faddr | fcmd | fsum => exact byte_reserved _
  | lcount => exact register_reserved (by decide) _ (by decide)
  | ilen => exact count_reserved h.ilen
  | olen => exact count_reserved h.olen
  | flen =>
    have hlen : s.fpay.length ≤ 255 := h.flen
    exact and_not_eq_zero_of_lt (n := 8) ((toNat_count (by omega)).trans_lt (by omega)) (by decide)
  | rpresLo | rpresHi | layout | rval => exact word_reserved _
  | fpay | obuf | ibuf => exact windowWord_reserved _ _
  | rimg i =>
    rw [State.readLoc]
    split
    · exact byte_reserved _
    · exact BitVec.zero_and

/-! ## Writes (R63, R65) -/

theorem writeLoc_of_not_writable (s : State) (v : Word) {l : Loc} (h : l.access = .unmapped ∨ l.access = .readOnly) :
    s.writeLoc v l = s := by
  cases l with
  | status | result | ilen | olen | info | fhdr | faddr | fcmd | flen | fsum | fpay | obuf | ibuf | unmapped => rfl
  | _ => simp [Loc.access] at h

/-- A store takes only the defined bits of the data. -/
theorem writeLoc_definedBits (s : State) (v : Word) {l : Loc} (h : l.access = .readWrite) :
    s.writeLoc (v &&& l.definedBits) l = s.writeLoc v l := by
  have hhalf := extractLsb'_and_mask (n := 16) (m := 0xFFFF) rfl v
  have hbyte := extractLsb'_and_mask (n := 8) (m := 0xFF) rfl v
  have hcount := extractLsb'_and_mask (n := 7) (m := 0x7F) rfl v
  cases l with
  | ctrl => simp [State.writeLoc, Loc.definedBits]
  | hdrExp | bhdr => simp only [State.writeLoc, Loc.definedBits, hhalf]
  | baddr | bcmd | rimg => simp only [State.writeLoc, Loc.definedBits, hbyte]
  | lcount => simp only [State.writeLoc, Loc.definedBits, hcount]
  | rpresLo | rpresHi | layout | rval => simp only [State.writeLoc, Loc.definedBits, and_full]
  | _ => cases h

/-- Settles O10: each clause at the transfer's location. -/
theorem unmappedAndReservedAreInert : Obligations.UnmappedAndReservedAreInert := by
  intro s a v hinv
  refine ⟨readLoc_reserved hinv _, readLoc_of_not_readable s, fun h => ?_, fun h => ?_⟩
  · have hacc : (locate a).access ≠ .writeOnly := by obtain h | h := h <;> simp [h]
    rw [busWrite_of_locate rfl hacc, writeLoc_of_not_writable s v h]
  · have hacc : (locate a).access ≠ .writeOnly := by simp [h]
    rw [busWrite_of_locate rfl hacc, busWrite_of_locate rfl hacc, writeLoc_definedBits s v h]

/-! ## Reading back what was written (R71) -/

/-- CTRL shows VC in bit 0 and VH in bit 1. -/
theorem ctrlBits_eq (v : Word) :
    (0 : BitVec 30) ++ BitVec.ofBool (v.getLsbD 1) ++ BitVec.ofBool (v.getLsbD 0) = v &&& 3 := by
  have hmask : ∀ i < 32, (3 : Word).getLsbD i = decide (i < 2) := by decide
  refine BitVec.eq_of_getLsbD_eq fun i hi => ?_
  rw [BitVec.getLsbD_and, hmask i hi, BitVec.getLsbD_append, BitVec.getLsbD_append]
  match i with
  | 0 => simp
  | 1 => simp
  | i + 2 => simp

theorem readLoc_writeLoc {s : State} (hinv : s.Inv) (v : Word) {l : Loc} (h : l.access = .readWrite)
    (hrimg : ∀ i, l = .rimg i → i < Config.bufSize) : (s.writeLoc v l).readLoc l = v &&& l.definedBits := by
  cases l with
  | ctrl => exact ctrlBits_eq v
  | hdrExp | bhdr | baddr | bcmd | lcount => exact low_bits v (by decide)
  | rpresLo => exact BitVec.extractLsb'_append_eq_right.trans (and_full v).symm
  | rpresHi => exact BitVec.extractLsb'_append_eq_left.trans (and_full v).symm
  | layout i | rval i => exact (Vector.getElem_set_self i.isLt).trans (and_full v).symm
  | rimg i =>
    have hin : Config.inBuf (i + 1) = true := inBuf_iff.mpr (hrimg i rfl)
    rw [State.readLoc, if_pos hin, State.writeLoc, if_pos hin, read_write hinv.rimg_wf, if_pos rfl]
    exact low_bits v (by decide)
  | _ => cases h

/-- Settles O12, by the read-back at each location. -/
theorem writeThenReadGivesStoredBits : Obligations.WriteThenReadGivesStoredBits := by
  intro s a v hinv hacc hrimg
  exact ⟨_, busWrite_of_locate rfl (by simp [hacc]) v s, readLoc_writeLoc hinv v hacc hrimg⟩

/-! ## The windows (R64) -/

theorem busRead_of_locate {a : Addr} {l : Loc} (hl : locate a = l) (s : State) : s.busRead a = s.readLoc l := by
  rw [State.busRead, hl]

theorem windowWord_eq (B : List Byte) (i : Nat) :
    windowWord B i = if h : i < B.length then (B[i]).setWidth 32 else 0 := by
  unfold windowWord byteAt
  split
  · rename_i h
    rw [List.getD_eq_getElem _ _ h]
  · rfl

theorem readLoc_rimg (s : State) (i : Nat) :
    s.readLoc (.rimg i) = if i < Config.bufSize then (s.rimg.read i).setWidth 32 else 0 :=
  if_congr inBuf_iff rfl rfl

/-- A write to RIMG changes the one byte, or nothing at an index past BUF_SIZE. -/
theorem writeLoc_rimg_bytes {s : State} (hinv : s.Inv) (v : Word) (i : Nat) :
    s.writeLoc v (.rimg i) = { s with rimg := (s.writeLoc v (.rimg i)).rimg } ∧
      ∀ j, (s.writeLoc v (.rimg i)).rimg.read j =
        if i < Config.bufSize ∧ j = i then v.extractLsb' 0 8 else s.rimg.read j := by
  by_cases hi : i < Config.bufSize
  · rw [State.writeLoc, if_pos (inBuf_iff.mpr hi)]
    exact ⟨rfl, fun j => by simp only [read_write hinv.rimg_wf, hi, true_and]⟩
  · rw [State.writeLoc, if_neg (mt inBuf_iff.mp hi)]
    exact ⟨rfl, fun j => by simp only [hi, false_and, if_false]⟩

/-- Settles O13, window by window at the addresses of its entries. -/
theorem windowReadsAndWrites : Obligations.WindowReadsAndWrites := fun s v hinv =>
  ⟨fun i hi => (busRead_of_locate (locate_fpay hi) s).trans (windowWord_eq _ i),
    fun i hi => (busRead_of_locate (locate_obuf hi) s).trans (windowWord_eq _ i),
    fun i hi => (busRead_of_locate (locate_ibuf hi) s).trans (windowWord_eq _ i),
    fun i hi => (busRead_of_locate (locate_rimg hi) s).trans (readLoc_rimg s i),
    fun i hi => ⟨_, busWrite_of_locate (locate_rimg hi) nofun v s, writeLoc_rimg_bytes hinv v i⟩,
    fun _ hi => busWrite_of_locate (locate_fpay hi) nofun v s,
    fun _ hi =>
      ⟨busWrite_of_locate (locate_obuf hi) nofun v s, busWrite_of_locate (locate_ibuf hi) nofun v s⟩⟩

end Sys2Proof.Proofs
end

section
/-! PROOFS. The encodings: an encoded instruction decodes to itself, a CMD word is decoded by its bits 31:4 first, the
opcode table's rows, and the lines of a host program (30_encoding.md R80-R82, R94, R95; 20_memory.md R62, R67, R68). -/

namespace Sys2Proof.Proofs

open Sys2Proof Sys2Proof.Machine Sys2Proof.Laws

/-! ## CMD words (R81) -/

theorem high_bits_eq_zero_iff {v : Word} : v.extractLsb' 4 28 = 0 ↔ v.toNat / 16 = 0 := by
  have hlt : v.toNat / 16 < 2 ^ 28 := by have := v.isLt; omega
  rw [← BitVec.toNat_inj, BitVec.extractLsb'_toNat, Nat.shiftRight_eq_div_pow, Nat.mod_eq_of_lt hlt]
  rfl

/-- Bits 31:4 are looked at first: where one of them is set, OP does not matter. -/
theorem decodeCmd_of_high_bits {v : Word} (h : v.extractLsb' 4 28 ≠ 0) : decodeCmd v = .illegalMbz v :=
  if_pos (bne_iff_ne.mpr h)

theorem decodeCmd_reserved_high (low : BitVec 3) : decodeCmd ((1 : BitVec 29) ++ low) = .illegalHigh low := by
  revert low; decide

/-- The sixteen words whose bits 31:4 are 0, by OP. -/
theorem decodeCmd_ofNat_of_lt : ∀ op < 16, decodeCmd (BitVec.ofNat 32 op) =
    if op = 1 then .fbuild
    else if op = 2 then .fprobe
    else if op = 3 then .fparse
    else if op = 4 then .lsize
    else if op = 5 then .fdecode
    else if op = 6 then .fencode
    else if op = 0 then .illegalZero
    else if op = 7 then .illegalSeven
    else .illegalHigh (BitVec.ofNat 3 (op - 8)) := by decide

/-- Settles O3: a set bit in 31:4 decides alone, and else the word is one of sixteen. -/
theorem cmdDecodeSelectsOneBehaviour : Obligations.CmdDecodeSelectsOneBehaviour := by
  intro v
  by_cases hhigh : v.toNat / 16 = 0
  · rw [if_neg (not_not.mpr hhigh), ← decodeCmd_ofNat_of_lt v.toNat (by omega), BitVec.ofNat_toNat, BitVec.setWidth_eq]
  · rw [if_pos hhigh, decodeCmd_of_high_bits (mt high_bits_eq_zero_iff.mp hhigh)]

/-! ## Decoding what was encoded -/

theorem low_byte_setWidth (b : Byte) : (b.setWidth 32).extractLsb' 0 8 = b :=
  (BitVec.extractLsb'_setWidth_of_le (by decide)).trans BitVec.extractLsb'_eq_self

theorem decodeWrite_cmd (v : Word) : decodeWrite 0x0004 v = .ok (decodeCmd v) := rfl

theorem decodeWrite_ipush (v : Word) : decodeWrite 0x0024 v = .ok (.ipush (v.extractLsb' 0 8)) := rfl

/-- Settles O1, row by row of the opcode table: only the rows with operand bits need the decoder's fields. -/
theorem decodeEncodeAgree : Obligations.DecodeEncodeAgree := by
  intro i hwf
  cases i with
  | illegalMbz v => rw [encode, decodeWrite_cmd, decodeCmd_of_high_bits (bne_iff_ne.mp hwf)]
  | illegalHigh low => rw [encode, decodeWrite_cmd, decodeCmd_reserved_high]
  | ipush b => rw [encode, decodeWrite_ipush, low_byte_setWidth]
  | fbuild | fprobe | fparse | lsize | fdecode | fencode | illegalZero | illegalSeven | iclr => rfl

/-- Settles O4: each word is a literal, and the decoder is run on it. -/
theorem tableRowsDecode : Obligations.TableRowsDecode := by
  unfold Obligations.TableRowsDecode
  decide

/-! ## Host programs (R94, R95) -/

theorem cmdWord_of_command {i : Instr} (h : i.isCommand = true) : cmdWord i = some (encode i).data := by
  cases i with
  | ipush | iclr => cases h
  | _ => rfl

theorem cmdWord_of_not_command {i : Instr} (h : i.isCommand = false) : cmdWord i = none := by
  cases i with
  | ipush | iclr => rfl
  | _ => cases h

theorem cmd_events_of_word {i : Instr} {w : Word} (h : cmdWord i = some w) :
    Line.events (.cmd i) = [.write 0x0004 w] := by
  rw [Line.events, h]
  rfl

theorem cmd_events_of_none {i : Instr} (h : cmdWord i = none) : Line.events (.cmd i) = [] := by
  rw [Line.events, h]
  rfl

theorem push_events (bs : List Byte) :
    Line.events (.push bs) = bs.map fun b => .write 0x0024 (b.setWidth 32) :=
  List.map_eq_flatMap.symm

/-- Every byte of OBUF that a line can name has its own address. -/
theorem rdobuf_events {bs : List Byte} (h : bs.length ≤ 1024) :
    Line.events (.rdobuf bs) = (List.range bs.length).map fun k => .read (BitVec.ofNat 16 (0x1000 + 4 * k)) := by
  rw [Line.events, List.map_eq_flatMap]
  refine List.flatMap_congr fun k hk => ?_
  have hlt : k < 1024 := (List.mem_range.mp hk).trans_le h
  rw [rdEvents, addrOf_obuf hlt]
  rfl

/-- Settles O6, pseudo-operation by pseudo-operation. -/
theorem pseudoOperationsExpand : Obligations.PseudoOperationsExpand :=
  ⟨fun _ hi => cmd_events_of_word (cmdWord_of_command hi), fun _ hi => cmd_events_of_none (cmdWord_of_not_command hi),
    push_events, rfl, fun _ hlen => ⟨rdobuf_events hlen, rfl⟩⟩

end Sys2Proof.Proofs
end

section
/-! PROOFS. Descriptors: which are valid, what field each stands for, the common ones, and what a field-codec command
reports of an invalid one in the layout (30_encoding.md R88-R91; 41_field_codec.md R141). -/

namespace Sys2Proof.Proofs

open Sys2Proof Sys2Proof.Machine Sys2Proof.Laws

/-! ## Validity (R89) -/

theorem descValid_iff {d : Word} : descValid d = true ↔
    d.extractLsb' 2 2 ≠ 3 ∧ d.extractLsb' 5 11 = 0 ∧
      (d.extractLsb' 0 2 = 3 → d.getLsbD 4 = false) ∧ (d.extractLsb' 0 2 ≠ 3 → d.extractLsb' 16 16 = 0) := by
  simp only [descValid, Bool.and_eq_true, bne_iff_ne, beq_iff_eq, and_assoc, Bool.ite_eq_true_distrib,
    ite_prop_iff_and, ne_eq]

/-- Every ORDER but the reserved one is an order. -/
theorem descOrder_isSome {d : Word} (h : d.extractLsb' 2 2 ≠ 3) : (descOrder d).isSome = true := by
  unfold descOrder
  revert h
  generalize d.extractLsb' 2 2 = order
  revert order
  decide

theorem descField_of_valid {i : Nat} {d : Word} {o : Order} (hv : descValid d = true) (ho : descOrder d = some o) :
    descField i d = some ⟨i, descKind d, o, descSigned d⟩ := by
  rw [descField, if_pos hv, ho]

theorem descField_isSome_iff {i : Nat} {d : Word} : (descField i d).isSome = true ↔ descValid d = true := by
  refine ⟨fun h => ?_, fun hv => ?_⟩
  · obtain ⟨f, hf⟩ := Option.isSome_iff_exists.mp h
    exact (descField_eq_some hf).1
  · obtain ⟨horder, -⟩ := descValid_iff.mp hv
    obtain ⟨o, ho⟩ := Option.isSome_iff_exists.mp (descOrder_isSome horder)
    rw [descField_of_valid hv ho]
    rfl

/-! ## Size and order (R90, R143) -/

theorem descKind_size (d : Word) :
    (descKind d).size = [1, 2, 4, (d.extractLsb' 16 16).toNat].getD (d.extractLsb' 0 2).toNat 0 := by
  unfold descKind
  generalize (d.extractLsb' 16 16).toNat = n
  have hlt := (d.extractLsb' 0 2).isLt
  generalize (d.extractLsb' 0 2).toNat = k at hlt ⊢
  match k, hlt with
  | 0, _ | 1, _ | 2, _ | 3, _ => rfl

/-- One byte is the same number in either order. -/
theorem unpack_singleton (o : ByteOrder) (b : Byte) : unpack o [b] = b.toNat := by
  cases o <;> rfl

/-- ORDER has no effect on a byte or a block. -/
theorem fieldValue_order {f : LayoutField Nat} (hk : f.kind = .byte ∨ f.kind.isBlock = true) (native : ByteOrder)
    (o : Order) {b : List Byte} (hb : b.length = f.size) :
    fieldValue native { f with order := o } b = fieldValue native f b := by
  obtain hbyte | hblock := hk
  · have hone : b.length = 1 := by rw [hb, LayoutField.size, hbyte, Kind.size]
    obtain ⟨x, rfl⟩ := List.length_eq_one_iff.mp hone
    simp only [fieldValue, LayoutField.size, unpack_singleton]
  · simp only [fieldValue, hblock, if_true]

/-! ## An invalid descriptor in the layout (R141) -/

/-- The scan stops at an invalid descriptor, if not before. -/
theorem layoutScan_error_of_invalid {ds : List Word} {i off j : Nat} {d : Word} (hd : ds[j]? = some d)
    (hinv : descField (i + j) d = none) : ∃ k, k ≤ i + j ∧ layoutScan i off ds = .error k := by
  induction ds generalizing i off j with
  | nil => cases hd
  | cons d' ds ih =>
    rw [layoutScan]
    cases hf : descField i d' with
    | none => exact ⟨i, Nat.le_add_right i j, rfl⟩
    | some f =>
      cases j with
      | zero =>
        cases hd
        cases hf.symm.trans hinv
      | succ j =>
        obtain ⟨k, hk, hscan⟩ := ih (i := i + 1) (off := off + f.size) hd (by rwa [Nat.add_right_comm])
        by_cases hsize : Config.inBuf (off + f.size) = true
        · exact ⟨k, by omega, by simp [hsize, hscan]⟩
        · exact ⟨i, by omega, by simp [hsize]⟩

theorem descriptors_getElem? {s : State} {j : Nat} (hj : j < s.lcount.toNat) (h64 : j < 64) :
    s.descriptors[j]? = some (s.layout.getD j 0) := by
  rw [State.descriptors, List.getElem?_take_of_lt hj]
  simp [h64, Vector.getD]

theorem layoutCheck_error_of_invalid {s : State} {j : Nat} (hle : s.lcount.toNat ≤ 64) (hj : j < s.lcount.toNat)
    (hinv : descField j (s.layout.getD j 0) = none) : ∃ k, k ≤ j ∧ s.layoutCheck = .error k := by
  rw [State.layoutCheck, Config.maxFields, if_neg (Nat.not_lt.mpr hle)]
  simpa using layoutScan_error_of_invalid (i := 0) (off := 0) (descriptors_getElem? hj (hj.trans_le hle))
    ((Nat.zero_add j).symm ▸ hinv)

/-- Each field-codec command reports the layout check's error as LAYOUT_INVALID (R145, R148, R151). -/
theorem fieldCommand_of_layout_error {i : Instr} {s : State} {info : Nat} (hi : i.isFieldCommand = true)
    (h : s.layoutCheck = .error info) :
    ∃ t, exec i s = .next t ∧ t.err = .layoutInvalid ∧ t.result = BitVec.ofNat 16 info := by
  simp only [Instr.isFieldCommand, Bool.or_eq_true, decide_eq_true_eq] at hi
  obtain (rfl | rfl) | rfl := hi
  · exact ⟨_, by rw [exec, execLsize, h]; rfl, rfl, rfl⟩
  · exact ⟨_, by rw [exec, execFdecode, h]; rfl, rfl, rfl⟩
  · exact ⟨_, by rw [exec, execFencode, h]; rfl, rfl, rfl⟩

/-- Settles O34: the command reports what the scan stops at, and a field has what its descriptor says. -/
theorem descriptorValidityAndSize : Obligations.DescriptorValidityAndSize := by
  refine ⟨fun s j i hle hj hinv hi => ?_, fun i d => ⟨descField_isSome_iff.trans descValid_iff, fun f hf => ?_⟩⟩
  · obtain ⟨k, hk, hcheck⟩ := layoutCheck_error_of_invalid hle hj hinv
    obtain ⟨t, ht, herr, hres⟩ := fieldCommand_of_layout_error hi hcheck
    exact ⟨k, t, hk, ht, herr, hres⟩
  · obtain ⟨-, -, hkind, -, -⟩ := descField_eq_some hf
    exact ⟨by rw [LayoutField.size, hkind, descKind_size], rfl, fun hk native o _ => fieldValue_order hk native o⟩

/-! ## The common descriptors (R91) -/

/-- A block's descriptor is N over the KIND of a block. -/
theorem block_descriptor_eq (n : Nat) : BitVec.ofNat 32 (n * 0x10000 + 3) = BitVec.ofNat 16 n ++ (3 : BitVec 16) := by
  refine BitVec.eq_of_toNat_eq ?_
  rw [BitVec.toNat_append, ← Nat.shiftLeft_add_eq_or_of_lt (BitVec.isLt _)]
  simp [Nat.shiftLeft_eq]
  omega

theorem block_descriptor_bits (N : Half) :
    (N ++ (3 : BitVec 16)).extractLsb' 0 2 = 3 ∧ (N ++ (3 : BitVec 16)).extractLsb' 2 2 = 0 ∧
      (N ++ (3 : BitVec 16)).getLsbD 4 = false ∧ (N ++ (3 : BitVec 16)).extractLsb' 5 11 = 0 ∧
      (N ++ (3 : BitVec 16)).extractLsb' 16 16 = N := by
  simp only [BitVec.extractLsb'_append_eq_ite, BitVec.getLsbD_append]
  simp

theorem descField_block {n : Nat} (i : Nat) (h : n < 65536) :
    descField i (BitVec.ofNat 32 (n * 0x10000 + 3)) = some ⟨i, .block n, .be, false⟩ := by
  rw [block_descriptor_eq]
  obtain ⟨hkind, horder, hsigned, hzero, hN⟩ := block_descriptor_bits (BitVec.ofNat 16 n)
  have hvalid := descValid_iff.mpr ⟨by rw [horder]; decide, hzero, fun _ => hsigned, fun hk => absurd hkind hk⟩
  have hbe : descOrder (BitVec.ofNat 16 n ++ (3 : BitVec 16)) = some .be := by rw [descOrder, horder]; rfl
  have hblock : descKind (BitVec.ofNat 16 n ++ (3 : BitVec 16)) = .block n := by
    rw [descKind, hkind, hN, BitVec.toNat_ofNat, Nat.mod_eq_of_lt h]
    rfl
  rw [descField_of_valid hvalid hbe, hblock, descSigned, hsigned]

/-- Settles O35: the fourteen integer formats are literals to decode, and a block's N is any. -/
theorem commonDescriptors : Obligations.CommonDescriptors :=
  ⟨fun _ => ⟨rfl, rfl, rfl, rfl, rfl, rfl, rfl, rfl, rfl, rfl, rfl, rfl, rfl, rfl⟩, fun i _ => descField_block i⟩

end Sys2Proof.Proofs
end

section
/-! PROOFS. What each instruction leaves unchanged, one lemma for each part of the state (30_encoding.md R93;
70_reset_and_hazards.md R197). -/

namespace Sys2Proof.Proofs

open Sys2Proof Sys2Proof.Machine Sys2Proof.Laws

section Frame

variable {i : Instr} {s t : State}

/-- The registers only the host writes, and the host's side of the bus. -/
theorem exec_operands (h : exec i s = .next t) :
    t.vc = s.vc ∧ t.vh = s.vh ∧ t.hdrExp = s.hdrExp ∧ t.bhdr = s.bhdr ∧ t.baddr = s.baddr ∧ t.bcmd = s.bcmd ∧
      t.lcount = s.lcount ∧ t.layout = s.layout ∧ t.pending = s.pending ∧ t.answers = s.answers := by
  cases exec_writes h <;> exact ⟨rfl, rfl, rfl, rfl, rfl, rfl, rfl, rfl, rfl, rfl⟩

theorem exec_ibuf (h : exec i s = .next t) (hi : i.isCommand = true) : t.ibuf = s.ibuf := by
  cases exec_writes h with
  | channel | output | record | frame | noFrame => rfl
  | push | overflow | clearInput => cases hi

theorem exec_channel (h : exec i s = .next t) (hi : i.isCommand = false) :
    t.err = s.err ∧ t.hdrOk = s.hdrOk ∧ t.csumOk = s.csumOk ∧ t.result = s.result := by
  cases exec_writes h with
  | channel hc => cases hi.symm.trans hc
  | output hb => obtain rfl | rfl := hb <;> cases hi
  | record | frame | noFrame => cases hi
  | push | overflow | clearInput => exact ⟨rfl, rfl, rfl, rfl⟩

theorem exec_obuf (h : exec i s = .next t) (hbuild : i ≠ .fbuild) (hencode : i ≠ .fencode) : t.obuf = s.obuf := by
  cases exec_writes h with
  | output hi => exact absurd hi (not_or.mpr ⟨hbuild, hencode⟩)
  | channel | record | frame | noFrame | push | overflow | clearInput => rfl

theorem exec_frame (h : exec i s = .next t) (hne : i ≠ .fparse) :
    t.fhdr = s.fhdr ∧ t.faddr = s.faddr ∧ t.fcmd = s.fcmd ∧ t.fsum = s.fsum ∧ t.fpay = s.fpay ∧
      t.fvalid = s.fvalid := by
  cases exec_writes h with
  | frame | noFrame => exact absurd rfl hne
  | channel | output | record | push | overflow | clearInput => exact ⟨rfl, rfl, rfl, rfl, rfl, rfl⟩

theorem exec_record (h : exec i s = .next t) (hne : i ≠ .fdecode) :
    t.rval = s.rval ∧ t.rpres = s.rpres ∧ t.rimg = s.rimg := by
  cases exec_writes h with
  | record => exact absurd rfl hne
  | channel | output | frame | noFrame | push | overflow | clearInput => exact ⟨rfl, rfl, rfl⟩

end Frame

/-- Settles O53: a next state there always is, and each part of the state has its own writers. -/
theorem instructionsWriteOnlyTheirState : Obligations.InstructionsWriteOnlyTheirState := by
  intro i s
  obtain ⟨t, ht⟩ := exec_total i s
  obtain ⟨hvc, hvh, hhdrExp, hbhdr, hbaddr, hbcmd, hlcount, hlayout, hpending, hanswers⟩ := exec_operands ht
  refine ⟨t, ht, hvc, hvh, hhdrExp, hbhdr, hbaddr, hbcmd, hlcount, hlayout, hpending, hanswers,
    fun hi => ⟨exec_ibuf ht hi, exec_iovf ht hi⟩, exec_channel ht, exec_obuf ht, exec_frame ht, fun hne => ?_⟩
  obtain ⟨hrval, hrpres, hrimg⟩ := exec_record ht hne
  exact ⟨hrval, hrpres, fun k => by rw [hrimg]⟩

end Sys2Proof.Proofs
end

section
/-! PROOFS. The checksum and the built frame: what the verifier sees, and where each part of a built frame lies
(40_frame_codec.md R110-R112, R115, R116). -/

namespace Sys2Proof.Proofs

open Sys2Proof Sys2Proof.Machine Sys2Proof.Laws

/-! ## The checksum (R110) -/

theorem checksum8_toNat (B : List Byte) : (checksum8 B).toNat = byteSum B % 256 := BitVec.toNat_ofNat _ 8

theorem checksum8_eq_iff {A B : List Byte} : checksum8 A = checksum8 B ↔ byteSum A % 256 = byteSum B % 256 := by
  rw [← BitVec.toNat_inj, checksum8_toNat, checksum8_toNat]

theorem checksum8_eq_byte_iff {B : List Byte} {x : Byte} : checksum8 B = x ↔ byteSum B % 256 = x.toNat := by
  rw [← BitVec.toNat_inj, checksum8_toNat]

/-- A sum does not depend on the order of its terms. -/
theorem checksum8_perm {A B : List Byte} (h : A.Perm B) : checksum8 A = checksum8 B :=
  congrArg (BitVec.ofNat 8) (h.map BitVec.toNat).sum_nat

theorem checksum8_eq_ofNat_mod (B : List Byte) : checksum8 B = BitVec.ofNat 8 (byteSum B % 256) := by
  rw [checksum8_eq_byte_iff, BitVec.toNat_ofNat, Nat.mod_mod]

/-! ## Bytes and slices -/

theorem byteAt_concat (body : List Byte) (x : Byte) : byteAt (body ++ [x]) body.length = x := by
  simp [byteAt]

theorem slice_concat (body : List Byte) (x : Byte) : slice (body ++ [x]) 0 body.length = body := List.take_left

/-! ## The verifier (R111) -/

/-- The verifier's answer on a complete frame, by its body and its last byte. -/
theorem csumOk_concat {body : List Byte} {x : Byte} (h : frameComplete (body ++ [x]) = true) :
    csumOk (body ++ [x]) = some (decide (checksum8 body = x)) := by
  have hlast : (body ++ [x]).length - 1 = body.length := by simp
  rw [csumOk_of_complete h, hlast, slice_concat, byteAt_concat]
  rfl

/-- Settles O21: the verifier sees a complete frame through its last byte and the checksum of its body only. -/
theorem verifierSeesOnlyTheByteSum : Obligations.VerifierSeesOnlyTheByteSum := by
  refine ⟨fun body body' => ⟨checksum8_perm, checksum8_eq_iff.symm⟩, fun body body' x hlen => ?_⟩
  have hanswer := csumOk_concat (frameComplete_iff.mpr hlen)
  refine ⟨?_, fun hlen' => ?_⟩
  · simpa only [checksum8_eq_byte_iff, byteSum] using hanswer
  · have hsame (h : checksum8 body = checksum8 body') : csumOk (body ++ [x]) = csumOk (body' ++ [x]) := by
      rw [hanswer, csumOk_concat (frameComplete_iff.mpr hlen'), h]
    exact ⟨fun hperm => hsame (checksum8_perm hperm), fun hsum => hsame (checksum8_eq_iff.mpr hsum)⟩

/-! ## The built frame (R112) -/

/-- The bytes that a built frame's checksum covers. -/
def frameBody (h0 h1 a c : Byte) (P : List Byte) : List Byte := [h0, h1, a, c, BitVec.ofNat 8 P.length] ++ P

/-- The frame that `frame_build` gives for a payload it takes. -/
def builtFrame (h0 h1 a c : Byte) (P : List Byte) : List Byte :=
  frameBody h0 h1 a c P ++ [checksum8 (frameBody h0 h1 a c P)]

section Built

variable {h0 h1 a c : Byte} {P : List Byte}

theorem frameBuild_eq (h : P.length ≤ 255) : frameBuild h0 h1 a c P = some (builtFrame h0 h1 a c P) :=
  frameBuild_of_le h

theorem frameBuild_eq_some {F : List Byte} (h : frameBuild h0 h1 a c P = some F) :
    P.length ≤ 255 ∧ F = builtFrame h0 h1 a c P := by
  have hle : P.length ≤ 255 := Nat.not_lt.mp fun hgt => by
    rw [frameBuild_of_gt hgt] at h
    cases h
  rw [frameBuild_eq hle] at h
  exact ⟨hle, (Option.some.inj h).symm⟩

theorem frameBody_length : (frameBody h0 h1 a c P).length = P.length + 5 := by
  simp [frameBody]

theorem builtFrame_length : (builtFrame h0 h1 a c P).length = P.length + 6 := by
  simp [builtFrame, frameBody_length]

/-- A payload that fits has its length in the one length byte. -/
theorem lengthByte_toNat (h : P.length ≤ 255) : (BitVec.ofNat 8 P.length).toNat = P.length :=
  Nat.mod_eq_of_lt (by omega)

theorem frameBody_byteSum (h : P.length ≤ 255) :
    byteSum (frameBody h0 h1 a c P) = h0.toNat + h1.toNat + a.toNat + c.toNat + P.length + byteSum P := by
  rw [frameBody, byteSum_append]
  simp only [byteSum_cons, byteSum_nil, lengthByte_toNat h]
  omega

theorem builtFrame_lengthByte : byteAt (builtFrame h0 h1 a c P) 4 = BitVec.ofNat 8 P.length := rfl

theorem builtFrame_complete (h : P.length ≤ 255) : frameComplete (builtFrame h0 h1 a c P) = true := by
  rw [frameComplete_iff, builtFrame_lengthByte, lengthByte_toNat h, builtFrame_length]

theorem builtFrame_payload : ((builtFrame h0 h1 a c P).drop 5).take P.length = P := List.take_left

theorem csumOk_builtFrame (h : P.length ≤ 255) : csumOk (builtFrame h0 h1 a c P) = some true := by
  rw [builtFrame, csumOk_concat (builtFrame_complete h), decide_eq_true rfl]

theorem frameProbe_builtFrame (h : P.length ≤ 255) : frameProbe (builtFrame h0 h1 a c P) = P.length + 6 := by
  rw [frameProbe_of_ge (by rw [builtFrame_length]; omega), builtFrame_lengthByte, lengthByte_toNat h]

end Built

/-- Settles O20: the checksum is that sum by definition, and the frame's last byte is the body's. -/
theorem checksumIsByteSum : Obligations.ChecksumIsByteSum := by
  refine ⟨checksum8_toNat, fun h0 h1 a c P F hF => ⟨frameBody h0 h1 a c P, rfl, ?_⟩⟩
  obtain ⟨-, rfl⟩ := frameBuild_eq_some hF
  rw [builtFrame, checksum8_eq_ofNat_mod]
  rfl

/-- Settles O22: the body's sum is the sum of its parts. -/
theorem frameBuildGivesBytes : Obligations.FrameBuildGivesBytes := by
  refine fun h0 h1 a c P => ⟨fun hle => ?_, frameBuild_of_gt⟩
  rw [frameBuild_eq hle, builtFrame, checksum8, frameBody_byteSum hle]
  rfl

/-- Settles O23, part by part. -/
theorem builtFrameShape : Obligations.BuiltFrameShape := fun h0 h1 a c P hle =>
  ⟨builtFrame h0 h1 a c P, frameBuild_eq hle, builtFrame_length, congrArg some (lengthByte_toNat hle),
    builtFrame_payload, csumOk_builtFrame hle, (frameProbe_builtFrame hle).trans builtFrame_length.symm⟩

end Sys2Proof.Proofs
end

section
/-! PROOFS. The parse: its outcomes in the order of their checks, that it sees the frame's own bytes only, and what it
gives on a built frame (40_frame_codec.md R120, R121, R124, R125, R127). -/

namespace Sys2Proof.Proofs

open Sys2Proof Sys2Proof.Machine Sys2Proof.Laws

/-! ## The outcomes (R121) -/

/-- Where the checksum byte of the frame at the start of `B` lies: the index after the payload. -/
def sumIndex (B : List Byte) : Nat := 5 + (byteAt B 4).toNat

/-- The checksum comparison of the frame at the start of `B`. -/
def sumMatches (B : List Byte) : Bool := checksum8 (slice B 0 (sumIndex B)) == byteAt B (sumIndex B)

/-- The frame at the start of `B`. -/
def frameAt (B : List Byte) : Frame where
  hdr0 := byteAt B 0
  hdr1 := byteAt B 1
  addr := byteAt B 2
  cmd := byteAt B 3
  len := byteAt B 4
  sum := byteAt B (sumIndex B)
  payload := slice B 5 (sumIndex B)

section Outcomes

variable {vc vh : Bool} {E : Byte × Byte} {B : List Byte}

theorem frameProbe_eq_sumIndex (h : 5 ≤ B.length) : frameProbe B = sumIndex B + 1 := if_neg (Nat.not_lt.mpr h)

theorem frameParse_of_short (h : B.length < 5) :
    frameParse vc vh E B = ⟨.err .insufficientData, 0, false, false⟩ := by
  rw [← frameProbe_of_lt h]
  exact if_pos h

/-- The checks that follow once the length is determined, in their order. -/
theorem frameParse_of_ge (h : 5 ≤ B.length) : frameParse vc vh E B =
    if vh = true ∧ hdrMatch B E = false then ⟨.err .headerMismatch, sumIndex B + 1, false, false⟩
    else if B.length < sumIndex B + 1 then ⟨.err .insufficientData, sumIndex B + 1, hdrMatch B E, false⟩
    else if vc = true ∧ sumMatches B = false then ⟨.err .checksumMismatch, sumIndex B + 1, hdrMatch B E, false⟩
    else ⟨.ok (frameAt B) (sumIndex B + 1), sumIndex B + 1, hdrMatch B E, sumMatches B⟩ := by
  simp only [← Bool.not_eq_true', ← Bool.and_eq_true]
  refine (if_neg (Nat.not_lt.mpr h)).trans ?_
  rw [frameProbe_eq_sumIndex h]
  rfl

theorem frameParse_of_header (h : 5 ≤ B.length) (hh : vh = true ∧ hdrMatch B E = false) :
    frameParse vc vh E B = ⟨.err .headerMismatch, sumIndex B + 1, false, false⟩ := by
  rw [frameParse_of_ge h, if_pos hh]

theorem frameParse_of_incomplete (h : 5 ≤ B.length) (hh : ¬(vh = true ∧ hdrMatch B E = false))
    (hL : B.length ≤ sumIndex B) :
    frameParse vc vh E B = ⟨.err .insufficientData, sumIndex B + 1, hdrMatch B E, false⟩ := by
  rw [frameParse_of_ge h, if_neg hh, if_pos (Nat.lt_succ_of_le hL)]

/-- A buffer with a checksum byte has the five bytes before the payload. -/
theorem five_le_of_complete (hL : sumIndex B < B.length) : 5 ≤ B.length := (Nat.le_add_right 5 _).trans hL.le

theorem frameParse_of_checksum (hL : sumIndex B < B.length) (hh : ¬(vh = true ∧ hdrMatch B E = false))
    (hc : vc = true ∧ sumMatches B = false) :
    frameParse vc vh E B = ⟨.err .checksumMismatch, sumIndex B + 1, hdrMatch B E, false⟩ := by
  rw [frameParse_of_ge (five_le_of_complete hL), if_neg hh, if_neg (Nat.not_lt.mpr hL), if_pos hc]

theorem frameParse_of_accepted (hL : sumIndex B < B.length) (hh : ¬(vh = true ∧ hdrMatch B E = false))
    (hc : ¬(vc = true ∧ sumMatches B = false)) :
    frameParse vc vh E B = ⟨.ok (frameAt B) (sumIndex B + 1), sumIndex B + 1, hdrMatch B E, sumMatches B⟩ := by
  rw [frameParse_of_ge (five_le_of_complete hL), if_neg hh, if_neg (Nat.not_lt.mpr hL), if_neg hc]

end Outcomes

/-! ## What the parse sees (R127) -/

section FrameBytes

variable {vc vh : Bool} {E : Byte × Byte} {B C : List Byte} {k : Nat}

theorem byteAt_take {i : Nat} (h : i < k) : byteAt (B.take k) i = byteAt B i := by
  rw [byteAt, List.getD_eq_getElem?_getD, List.getElem?_take_of_lt h, ← List.getD_eq_getElem?_getD, byteAt]

theorem slice_take {i j : Nat} (h : j ≤ k) : slice (B.take k) i j = slice B i j := by
  rw [slice, List.drop_take, List.take_take, Nat.min_eq_left (Nat.sub_le_sub_right h i), slice]

theorem hdrMatch_take (h : 5 ≤ k) : hdrMatch (B.take k) E = hdrMatch B E := by
  rw [hdrMatch, byteAt_take (by omega), byteAt_take (by omega), hdrMatch]

theorem sumIndex_take (h : 5 ≤ k) : sumIndex (B.take k) = sumIndex B := by
  rw [sumIndex, byteAt_take h, sumIndex]

theorem sumMatches_take (h : sumIndex B < k) : sumMatches (B.take k) = sumMatches B := by
  have h5 : 5 ≤ k := (Nat.le_add_right 5 _).trans h.le
  rw [sumMatches, sumIndex_take h5, slice_take h.le, byteAt_take h, sumMatches]

theorem frameAt_take (h : sumIndex B < k) : frameAt (B.take k) = frameAt B := by
  have h5 : 5 ≤ k := (Nat.le_add_right 5 _).trans h.le
  simp only [frameAt, sumIndex_take h5, slice_take h.le, byteAt_take h, byteAt_take (show 0 < k by omega),
    byteAt_take (show 1 < k by omega), byteAt_take (show 2 < k by omega), byteAt_take (show 3 < k by omega),
    byteAt_take (show 4 < k by omega)]

/-- The parse of a complete frame is that of the frame's own bytes. -/
theorem frameParse_take (h : sumIndex B < B.length) :
    frameParse vc vh E (B.take (sumIndex B + 1)) = frameParse vc vh E B := by
  have h5 : 5 ≤ sumIndex B := Nat.le_add_right 5 _
  have hlen : (B.take (sumIndex B + 1)).length = sumIndex B + 1 := List.length_take_of_le h
  rw [frameParse_of_ge (by omega), frameParse_of_ge (B := B) (by omega), hlen, sumIndex_take (by omega),
    hdrMatch_take (by omega), sumMatches_take (Nat.lt_succ_self _), frameAt_take (Nat.lt_succ_self _),
    if_neg (Nat.lt_irrefl _), if_neg (Nat.not_lt.mpr h)]

theorem frameParse_congr (hB : sumIndex B < B.length) (hC : sumIndex B < C.length)
    (h : B.take (sumIndex B + 1) = C.take (sumIndex B + 1)) : frameParse vc vh E B = frameParse vc vh E C := by
  have h5 : 5 ≤ sumIndex B + 1 := Nat.le_succ_of_le (Nat.le_add_right 5 _)
  have hidx : sumIndex C = sumIndex B := by rw [← sumIndex_take h5, ← h, sumIndex_take h5]
  rw [← frameParse_take hB, h, ← hidx]
  exact frameParse_take (hidx ▸ hC)

/-- Bytes after a complete frame do not change the parse. -/
theorem frameParse_append (h : sumIndex B < B.length) (T : List Byte) :
    frameParse vc vh E (B ++ T) = frameParse vc vh E B :=
  (frameParse_congr h (h.trans_le (by simp)) (List.take_append_of_le_length h).symm).symm

end FrameBytes

/-- Settles O32: complete frames agree on their bytes, and buffers that end before their frame does are the same. -/
theorem parseDependsOnFrameBytes : Obligations.ParseDependsOnFrameBytes := by
  intro vc vh E B C h5 htake hlen
  rw [frameProbe_eq_sumIndex h5] at htake hlen ⊢
  refine ⟨?_, fun hB T => frameParse_append hB T⟩
  by_cases hB : sumIndex B + 1 ≤ B.length
  · rw [Nat.min_eq_right hB, Nat.min_eq_right (hlen.mp hB)] at htake
    exact frameParse_congr hB (hlen.mp hB) htake
  · have hC : ¬sumIndex B + 1 ≤ C.length := mt hlen.mpr hB
    rw [Nat.min_eq_left (by omega), Nat.min_eq_left (by omega), List.take_length, List.take_length] at htake
    rw [htake]

/-! ## The parse of a built frame (R124, R125) -/

section Built

variable {vc vh : Bool} {E : Byte × Byte} {h0 h1 a c : Byte} {P : List Byte}

theorem sumIndex_builtFrame (h : P.length ≤ 255) :
    sumIndex (builtFrame h0 h1 a c P) = (frameBody h0 h1 a c P).length := by
  rw [sumIndex, builtFrame_lengthByte, lengthByte_toNat h, frameBody_length, Nat.add_comm]

theorem hdrMatch_builtFrame : hdrMatch (builtFrame h0 h1 a c P) E = decide ((h0, h1) = E) := by
  rw [Bool.eq_iff_iff, decide_eq_true_eq, Prod.ext_iff, hdrMatch, Bool.and_eq_true, beq_iff_eq, beq_iff_eq]
  rfl

/-- The header check of R119 looks at the two header bytes the frame was built with. -/
theorem header_rejects_builtFrame_iff :
    vh = true ∧ hdrMatch (builtFrame h0 h1 a c P) E = false ↔ vh = true ∧ (h0, h1) ≠ E := by
  rw [hdrMatch_builtFrame, decide_eq_false_iff_not]

/-- A built frame's checksum byte is right. -/
theorem sumByte_builtFrame (h : P.length ≤ 255) : byteAt (builtFrame h0 h1 a c P) (sumIndex (builtFrame h0 h1 a c P)) =
    checksum8 (frameBody h0 h1 a c P) := by
  rw [sumIndex_builtFrame h]
  exact byteAt_concat _ _

theorem sumMatches_builtFrame (h : P.length ≤ 255) : sumMatches (builtFrame h0 h1 a c P) = true := by
  have hbody : slice (builtFrame h0 h1 a c P) 0 (frameBody h0 h1 a c P).length = frameBody h0 h1 a c P :=
    slice_concat _ _
  rw [sumMatches, sumByte_builtFrame h, sumIndex_builtFrame h, hbody, beq_self_eq_true]

theorem frameAt_builtFrame (h : P.length ≤ 255) : frameAt (builtFrame h0 h1 a c P) =
    ⟨h0, h1, a, c, BitVec.ofNat 8 P.length, checksum8 (frameBody h0 h1 a c P), P⟩ := by
  have hpayload : slice (builtFrame h0 h1 a c P) 5 (sumIndex (builtFrame h0 h1 a c P)) = P := by
    rw [sumIndex_builtFrame h, frameBody_length, slice, Nat.add_sub_cancel]
    exact builtFrame_payload
  rw [frameAt, sumByte_builtFrame h, hpayload]
  rfl

theorem sumIndex_lt_builtFrame_length (h : P.length ≤ 255) :
    sumIndex (builtFrame h0 h1 a c P) < (builtFrame h0 h1 a c P).length := by
  rw [sumIndex_builtFrame h, frameBody_length, builtFrame_length]
  exact Nat.lt_succ_self _

theorem header_accepts_builtFrame (h : vh = false ∨ (h0, h1) = E) :
    ¬(vh = true ∧ hdrMatch (builtFrame h0 h1 a c P) E = false) := by
  rw [header_rejects_builtFrame_iff]
  rintro ⟨hvh, hne⟩
  exact h.elim (fun hoff => Bool.noConfusion (hvh.symm.trans hoff)) hne

/-- A built frame is accepted, whatever follows it, if the header check does not reject it. -/
theorem frameParse_builtFrame (h : P.length ≤ 255) (hh : vh = false ∨ (h0, h1) = E) (T : List Byte) :
    frameParse vc vh E (builtFrame h0 h1 a c P ++ T) =
      ⟨.ok ⟨h0, h1, a, c, BitVec.ofNat 8 P.length, checksum8 (frameBody h0 h1 a c P), P⟩ (P.length + 6), P.length + 6,
        decide ((h0, h1) = E), true⟩ := by
  rw [frameParse_append (sumIndex_lt_builtFrame_length h),
    frameParse_of_accepted (sumIndex_lt_builtFrame_length h) (header_accepts_builtFrame hh)
      (by simp [sumMatches_builtFrame h]),
    frameAt_builtFrame h, sumIndex_builtFrame h, frameBody_length, hdrMatch_builtFrame, sumMatches_builtFrame h]

end Built

/-- Settles O29: the header check is the only one that can reject a built frame. -/
theorem buildParseRoundTrip : Obligations.BuildParseRoundTrip := by
  intro vc vh E h0 h1 a c P T hle
  refine ⟨builtFrame h0 h1 a c P, frameBuild_eq hle, fun hok => ?_, fun hbad => ?_⟩
  · rw [frameParse_builtFrame hle hok, builtFrame_length]
    exact ⟨_, rfl, rfl, rfl, rfl, rfl, rfl⟩
  · rw [frameParse_append (sumIndex_lt_builtFrame_length hle),
      frameParse_of_header (five_le_of_complete (sumIndex_lt_builtFrame_length hle))
        (header_rejects_builtFrame_iff.mpr hbad)]

/-- Settles O30: below five bytes the length is not known; from five on the header check answers as on the whole frame,
and where it passes the length check fails. -/
theorem strictPrefixNeverParses : Obligations.StrictPrefixNeverParses := by
  intro vc vh E h0 h1 a c P F k hF hk
  obtain ⟨hle, rfl⟩ := frameBuild_eq_some hF
  have hlen : ((builtFrame h0 h1 a c P).take k).length = k := List.length_take_of_le hk.le
  by_cases h5 : 5 ≤ k
  · have hheader := header_rejects_builtFrame_iff (vh := vh) (E := E) (h0 := h0) (h1 := h1) (a := a) (c := c) (P := P)
    rw [← hdrMatch_take h5] at hheader
    by_cases hh : vh = true ∧ (h0, h1) ≠ E
    · rw [if_pos ⟨hh.1, h5, hh.2⟩, frameParse_of_header (by omega) (hheader.mpr hh)]
    · have hshort : k ≤ sumIndex (builtFrame h0 h1 a c P) := by
        rw [sumIndex_builtFrame hle, frameBody_length]
        rw [builtFrame_length] at hk
        omega
      rw [if_neg (fun ⟨hvh, _, hne⟩ => hh ⟨hvh, hne⟩), frameParse_of_incomplete (by omega) (mt hheader.mp hh)
        (by rw [hlen, sumIndex_take h5]; exact hshort)]
  · rw [if_neg (fun ⟨_, hk5, _⟩ => h5 hk5), frameParse_of_short (by omega)]

end Sys2Proof.Proofs
end

section
/-! PROOFS. The frame codec's commands: FBUILD, FPROBE and FPARSE as their level-1 functions and the writes they make
(40_frame_codec.md R113, R114, R116, R118, R122, R123, R126). -/

namespace Sys2Proof.Proofs

open Sys2Proof Sys2Proof.Machine Sys2Proof.Laws

/-! ## FBUILD (R113, R114) -/

/-- The frame that FBUILD builds from its operands. -/
def stateFrame (s : State) : List Byte := builtFrame (headerHi s.bhdr) (headerLo s.bhdr) s.baddr s.bcmd s.ibuf

theorem exec_fbuild_of_le {s : State} (h : s.ibuf.length ≤ 255) :
    exec .fbuild s = .next ((s.setOutput (stateFrame s)).setChannel .ok false false (s.ibuf.length + 6)) := by
  rw [exec, execFbuild, frameBuild_eq h, ← builtFrame_length]
  rfl

theorem exec_fbuild_of_gt {s : State} (h : 255 < s.ibuf.length) :
    exec .fbuild s = .next ((s.setOutput []).setChannel .payloadTooLong false false s.ibuf.length) := by
  rw [exec, execFbuild, frameBuild_of_gt h]
  rfl

/-- Settles O24, on the two sides of the payload limit; the least BUF_SIZE holds the longest frame. -/
theorem fbuildWritesFrame : Obligations.FbuildWritesFrame := by
  rintro s body rfl
  have hsize := bufSize_ge
  exact ⟨fun h => ⟨by omega, exec_fbuild_of_le h⟩, exec_fbuild_of_gt, rfl⟩

/-- Settles O25: on each side of the payload limit FBUILD's writes name its operands only. -/
theorem fbuildIsDeterminedByOperands : Obligations.FbuildIsDeterminedByOperands := by
  intro s s' hbhdr hbaddr hbcmd hibuf
  by_cases h : s.ibuf.length ≤ 255
  · have hframe : stateFrame s = stateFrame s' := by rw [stateFrame, hbhdr, hbaddr, hbcmd, hibuf, stateFrame]
    exact ⟨_, _, exec_fbuild_of_le h, exec_fbuild_of_le (hibuf ▸ h), hframe, congrArg List.length hframe,
      by simp [hibuf]⟩
  · have hgt : 255 < s.ibuf.length := Nat.not_le.mp h
    exact ⟨_, _, exec_fbuild_of_gt hgt, exec_fbuild_of_gt (hibuf ▸ hgt), rfl, rfl, by simp [hibuf]⟩

/-! ## FPROBE (R116, R118) -/

theorem byteAt_eq_getElem {B : List Byte} {i : Nat} (h : i < B.length) : byteAt B i = B[i] :=
  List.getD_eq_getElem _ _ h

/-- The probe is at least a frame without payload, and at most the longest frame. -/
theorem frameProbe_bounds {B : List Byte} (h : 5 ≤ B.length) : 6 ≤ frameProbe B ∧ frameProbe B ≤ 261 := by
  have := (byteAt B 4).isLt
  rw [frameProbe_of_ge h]
  omega

theorem frameProbe_eq_getElem {B : List Byte} (h : 5 ≤ B.length) : frameProbe B = 5 + (B[4]).toNat + 1 := by
  rw [frameProbe_eq_sumIndex h, sumIndex, byteAt_eq_getElem h]

theorem exec_fprobe (s : State) : exec .fprobe s = .next (s.setChannel .ok false false (frameProbe s.ibuf)) := rfl

/-- Settles O26, on the two sides of five bytes. -/
theorem fprobeGivesLength : Obligations.FprobeGivesLength := by
  refine ⟨fun B => ⟨frameProbe_of_lt, fun h => ⟨frameProbe_eq_getElem h, frameProbe_bounds h⟩⟩, fun s => ⟨?_, rfl⟩⟩
  rw [exec_fprobe]
  by_cases h : 5 ≤ s.ibuf.length
  · rw [dif_pos h, frameProbe_eq_getElem h]
    rfl
  · rw [dif_neg h, frameProbe_of_lt (Nat.not_le.mp h)]
    rfl

/-! ## FPARSE (R122, R123, R126) -/

/-- The parse that FPARSE makes of its operands. -/
def stateParse (s : State) : ParseOut := frameParse s.vc s.vh (headerHi s.hdrExp, headerLo s.hdrExp) s.ibuf

/-- What FPARSE writes for a parse: the frame or cleared frame registers, and the result channel. -/
def parseWrites (r : ParseOut) (s : State) : State :=
  match r.res with
  | .ok f _ => (s.setFrame f).setChannel .ok r.hdrOk r.csumOk r.need
  | .err e => s.clearFrame.setChannel e r.hdrOk r.csumOk r.need

theorem exec_fparse (s : State) : exec .fparse s = .next (parseWrites (stateParse s) s) := by
  simp only [exec, execFparse, parseWrites, stateParse]
  generalize frameParse s.vc s.vh _ s.ibuf = r
  cases r.res <;> rfl

/-- FPARSE writes none of its operands. -/
theorem stateParse_parseWrites (r : ParseOut) (s : State) : stateParse (parseWrites r s) = stateParse s := by
  unfold parseWrites
  split <;> rfl

theorem parseWrites_idem (r : ParseOut) (s : State) : parseWrites r (parseWrites r s) = parseWrites r s := by
  unfold parseWrites
  split <;> rfl

/-- The values FPARSE writes are the parse's own, whatever the state held. -/
theorem parseWrites_eq (r : ParseOut) (s s' : State) : parseWrites r s' = { s' with
    fhdr := (parseWrites r s).fhdr, faddr := (parseWrites r s).faddr, fcmd := (parseWrites r s).fcmd
    fsum := (parseWrites r s).fsum, fpay := (parseWrites r s).fpay, fvalid := (parseWrites r s).fvalid
    err := (parseWrites r s).err, hdrOk := (parseWrites r s).hdrOk, csumOk := (parseWrites r s).csumOk
    result := (parseWrites r s).result } := by
  unfold parseWrites
  split <;> rfl

/-- Settles O31: a second parse sees the same operands and writes the same values. -/
theorem fparseIsPureAndIdempotent : Obligations.FparseIsPureAndIdempotent := by
  refine ⟨fun s => ⟨_, exec_fparse s, ?_⟩, fun s s' hvc hvh hhdrExp hibuf => ?_⟩
  · rw [exec_fparse, stateParse_parseWrites, parseWrites_idem]
  · have hparse : stateParse s' = stateParse s := by rw [stateParse, ← hvc, ← hvh, ← hhdrExp, ← hibuf, stateParse]
    exact ⟨_, _, exec_fparse s, exec_fparse s', hparse ▸ parseWrites_eq _ s s'⟩

/-! ### FPARSE's comparisons, as the rules state them -/

/-- The header comparison, byte by byte (R119). -/
theorem hdrMatch_eq_decide (s : State) : hdrMatch s.ibuf (headerHi s.hdrExp, headerLo s.hdrExp) =
    decide (s.ibuf.getD 0 0 = s.hdrExp.extractLsb' 8 8 ∧ s.ibuf.getD 1 0 = s.hdrExp.extractLsb' 0 8) := by
  rw [Bool.decide_and]
  rfl

/-- The checksum comparison, on byte sums (R110, R111). -/
theorem sumMatches_eq_decide (B : List Byte) : sumMatches B =
    decide (((B.take (sumIndex B)).map BitVec.toNat).sum % 256 = (B.getD (sumIndex B) 0).toNat) := by
  rw [sumMatches, beq_eq_decide]
  exact decide_eq_decide.mpr checksum8_eq_byte_iff

theorem sumIndex_succ (B : List Byte) : sumIndex B + 1 = (B.getD 4 0).toNat + 6 := by
  rw [sumIndex, byteAt]
  omega

theorem frameAt_payload (B : List Byte) : (frameAt B).payload = (B.drop 5).take (B.getD 4 0).toNat := by
  rw [frameAt, slice, sumIndex, Nat.add_sub_cancel_left]
  rfl

/-- Settles O27: each branch is the parse's outcome under the conditions that lead to it. -/
theorem fparseOutcomes : Obligations.FparseOutcomes := by
  rintro s B n h c rfl rfl hh hc
  replace hh := hh.trans (hdrMatch_eq_decide s).symm
  replace hc := hc.trans (sumMatches_eq_decide s.ibuf).symm
  subst hh hc
  have hneed := sumIndex_succ s.ibuf
  refine ⟨?_, fun hlen => ?_, rfl⟩
  · rw [exec_fparse, stateParse]
    split_ifs with hshort hheader hlen hsum
    · rw [frameParse_of_short hshort]
      rfl
    · rw [frameParse_of_header (Nat.not_lt.mp hshort) hheader, hneed]
      rfl
    · rw [frameParse_of_incomplete (Nat.not_lt.mp hshort) hheader (by omega), hneed]
      rfl
    · rw [frameParse_of_checksum (by omega) hheader hsum, hneed]
      rfl
    · rw [frameParse_of_accepted (by omega) hheader hsum, hneed, ← frameAt_payload]
      rfl
  · rw [List.length_take_of_le (by rw [List.length_drop]; omega)]

/-- Settles O28, by which of the two comparisons rejects the frame. -/
theorem strictnessPolicy : Obligations.StrictnessPolicy := by
  rintro s n h c rfl hlen hh hc
  replace hh := hh.trans (hdrMatch_eq_decide s).symm
  replace hc := hc.trans (sumMatches_eq_decide s.ibuf).symm
  subst hh hc
  have hL : sumIndex s.ibuf < s.ibuf.length := (sumIndex_succ s.ibuf).trans_le hlen
  refine ⟨_, exec_fparse s, ?_⟩
  rw [stateParse]
  by_cases hheader : s.vh = true ∧ hdrMatch s.ibuf (headerHi s.hdrExp, headerLo s.hdrExp) = false
  · rw [frameParse_of_header (five_le_of_complete hL) hheader]
    simp [parseWrites, hheader]
  · by_cases hsum : s.vc = true ∧ sumMatches s.ibuf = false
    · rw [frameParse_of_checksum hL hheader hsum]
      simpa [parseWrites, hsum] using hheader
    · rw [frameParse_of_accepted hL hheader hsum]
      have hpass : s.vh = true → hdrMatch s.ibuf (headerHi s.hdrExp, headerLo s.hdrExp) = true := by simpa using hheader
      have hright : s.vc = true → sumMatches s.ibuf = true := by simpa using hsum
      exact ⟨iff_of_false nofun hheader, iff_of_false nofun fun ⟨_, hbad⟩ => hsum hbad, iff_of_true rfl ⟨hpass, hright⟩,
        iff_of_true rfl rfl, fun _ => ⟨rfl, rfl⟩⟩

/-! ## The loop-back (R113, R123, R124) -/

theorem header_halves (h : Half) : headerHi h ++ headerLo h = h :=
  (BitVec.extractLsb'_append_extractLsb'_eq_extractLsb' rfl).trans BitVec.extractLsb'_eq_self

theorem header_pair_eq_iff {h k : Half} : (headerHi h, headerLo h) = (headerHi k, headerLo k) ↔ h = k := by
  refine ⟨fun heq => ?_, fun heq => heq ▸ rfl⟩
  obtain ⟨hhi, hlo⟩ := Prod.mk.inj heq
  rw [← header_halves h, hhi, hlo, header_halves]

/-- ICLR, IPUSH of bytes that fit and FPARSE parse exactly those bytes. -/
theorem execAll_refill_fparse {s : State} {bs : List Byte} (h : bs.length ≤ Config.bufSize) :
    execAll (.iclr :: (bs.map .ipush ++ [.fparse])) s =
      .next (parseWrites (frameParse s.vc s.vh (headerHi s.hdrExp, headerLo s.hdrExp) bs) (s.setInput bs false)) := by
  rw [execAll_refill bs [.fparse] s h, execAll, exec_fparse]
  rfl

/-- Settles O33: OBUF's frame comes to IBUF whole, and its parse gives the operands back. -/
theorem loopedBackFrameParses : Obligations.LoopedBackFrameParses := by
  intro s hle hh
  have hsize := bufSize_ge
  have hlen : (stateFrame s).length = s.ibuf.length + 6 := builtFrame_length
  have hparse := frameParse_builtFrame (vc := s.vc) (a := s.baddr) (c := s.bcmd) hle
    (hh.imp_right header_pair_eq_iff.mpr) []
  rw [List.append_nil, ← stateFrame] at hparse
  refine ⟨_, _, exec_fbuild_of_le hle, execAll_refill_fparse (bs := stateFrame s) (by omega), ?_⟩
  simp only [setChannel_vc, setOutput_vc, setChannel_vh, setOutput_vh, setChannel_hdrExp, setOutput_hdrExp, hparse]
  exact ⟨rfl, rfl, rfl, decide_eq_decide.mpr header_pair_eq_iff, header_halves s.bhdr, rfl, rfl, rfl, rfl⟩

end Sys2Proof.Proofs
end

section
/-! PROOFS. Packing and unpacking integers: the digits by position, the two inverses, and the bound on what bytes
unpack to (41_field_codec.md R142, R152). -/

namespace Sys2Proof.Proofs

open Sys2Proof Sys2Proof.Machine Sys2Proof.Laws

theorem two_pow_eight_mul (s : Nat) : 2 ^ (8 * s) = 256 ^ s := by rw [pow_mul]; rfl

/-! ## Unpacking by position -/

theorem unpackLE_eq_ofDigits (b : List Byte) : unpackLE b = Nat.ofDigits 256 (b.map BitVec.toNat) := by
  induction b with
  | nil => rfl
  | cons x b ih => rw [unpackLE, ih, List.map_cons, Nat.ofDigits_cons]

theorem unpackLE_concat (b : List Byte) (x : Byte) : unpackLE (b ++ [x]) = unpackLE b + 256 ^ b.length * x.toNat := by
  simp only [unpackLE_eq_ofDigits, List.map_append, Nat.ofDigits_append, List.length_map, List.map_singleton,
    Nat.ofDigits_singleton]

theorem unpackLE_lt (b : List Byte) : unpackLE b < 256 ^ b.length := by
  have h := Nat.ofDigits_lt_base_pow_length (b := 256) (l := b.map BitVec.toNat) (by decide) fun x hx => by
    obtain ⟨y, -, rfl⟩ := List.mem_map.mp hx
    exact y.isLt
  rwa [← unpackLE_eq_ofDigits, List.length_map] at h

theorem unpack_lt (o : ByteOrder) (b : List Byte) : unpack o b < 2 ^ (8 * b.length) := by
  rw [two_pow_eight_mul]
  cases o with
  | le => exact unpackLE_lt b
  | be => simpa only [unpack, List.length_reverse] using unpackLE_lt b.reverse

theorem unpack_le_eq_sum (b : List Byte) :
    unpack .le b = ((List.range b.length).map fun k => (b.getD k 0).toNat * 256 ^ k).sum := by
  rw [unpack]
  induction b with
  | nil => rfl
  | cons x b ih =>
    have hshift (k : Nat) : (b.getD k 0).toNat * 256 ^ (k + 1) = 256 * ((b.getD k 0).toNat * 256 ^ k) := by ring
    rw [unpackLE, ih, List.length_cons, List.range_succ_eq_map, ← List.sum_map_mul_left]
    simp only [List.map_cons, List.map_map, List.sum_cons, Function.comp_def, List.getD_cons_zero,
      List.getD_cons_succ, hshift, Nat.pow_zero, Nat.mul_one]

theorem unpack_be_eq_sum (b : List Byte) :
    unpack .be b = ((List.range b.length).map fun k => (b.getD k 0).toNat * 256 ^ (b.length - 1 - k)).sum := by
  rw [unpack]
  induction b with
  | nil => rfl
  | cons x b ih =>
    have hshift (k : Nat) : b.length - 1 - k = b.length - k.succ := by omega
    rw [List.reverse_cons, unpackLE_concat, ih, List.length_cons, List.range_succ_eq_map, List.length_reverse,
      Nat.add_comm, Nat.mul_comm]
    simp only [List.map_cons, List.map_map, List.sum_cons, Function.comp_def, List.getD_cons_zero,
      List.getD_cons_succ, hshift, Nat.add_sub_cancel, Nat.sub_zero]

/-! ## Packing by position -/

theorem pack_le_eq_map (s u : Nat) : pack .le s u = (List.range s).map fun k => BitVec.ofNat 8 (u / 256 ^ k % 256) := by
  have hmod (n : Nat) : BitVec.ofNat 8 (n % 256) = BitVec.ofNat 8 n := BitVec.eq_of_toNat_eq (by simp)
  rw [pack]
  induction s generalizing u with
  | zero => rfl
  | succ s ih =>
    rw [packLE, ih, List.range_succ_eq_map]
    simp [Function.comp_def, hmod, Nat.pow_succ', Nat.div_div_eq_div_mul]

theorem pack_be_eq_map (s u : Nat) :
    pack .be s u = (List.range s).map fun k => BitVec.ofNat 8 (u / 256 ^ (s - 1 - k) % 256) := by
  have hrev : pack .be s u = (pack .le s u).reverse := rfl
  rw [hrev, pack_le_eq_map]
  exact List.ext_getElem (by simp) fun k _ _ => by simp

/-- Settles O38, clause by clause. -/
theorem packAndUnpackByPosition : Obligations.PackAndUnpackByPosition := by
  refine ⟨fun b => ⟨unpack_le_eq_sum b, unpack_be_eq_sum b⟩, fun s u => ⟨pack_le_eq_map s u, pack_be_eq_map s u⟩,
    fun s u => ⟨rfl, ?_⟩, fun s v => ⟨?_, ?_⟩, fun b u => ⟨rfl, rfl⟩⟩
  · simp only [intValue, Bool.true_and, decide_eq_true_eq]
  · simp [inRange]
  · simp [inRange]

/-! ## The two inverses -/

theorem unpackLE_packLE (s u : Nat) : unpackLE (packLE s u) = u % 256 ^ s := by
  induction s generalizing u with
  | zero => simp [packLE, unpackLE, Nat.mod_one]
  | succ s ih =>
    have hsplit : u % 256 ^ (s + 1) = u % 256 + 256 * (u / 256 % 256 ^ s) := by rw [Nat.pow_succ', Nat.mod_mul]
    rw [packLE, unpackLE, ih, BitVec.toNat_ofNat, hsplit]

theorem packLE_unpackLE (b : List Byte) : packLE b.length (unpackLE b) = b := by
  induction b with
  | nil => rfl
  | cons x b ih =>
    have hlt := x.isLt
    have hlow : BitVec.ofNat 8 (x.toNat + 256 * unpackLE b) = x := BitVec.eq_of_toNat_eq (by simp; omega)
    have hhigh : (x.toNat + 256 * unpackLE b) / 256 = unpackLE b := by omega
    rw [List.length_cons, unpackLE, packLE, hlow, hhigh, ih]

theorem unpack_pack (o : ByteOrder) {s u : Nat} (h : u < 2 ^ (8 * s)) : unpack o (pack o s u) = u := by
  rw [two_pow_eight_mul] at h
  cases o with
  | le => rw [pack, unpack, unpackLE_packLE, Nat.mod_eq_of_lt h]
  | be => rw [pack, unpack, List.reverse_reverse, unpackLE_packLE, Nat.mod_eq_of_lt h]

theorem pack_unpack (o : ByteOrder) (b : List Byte) : pack o b.length (unpack o b) = b := by
  cases o with
  | le => exact packLE_unpackLE b
  | be => rw [pack, unpack, ← List.length_reverse, packLE_unpackLE, List.reverse_reverse]

/-- Settles O39, from the little-endian inverses. -/
theorem packUnpackInverse : Obligations.PackUnpackInverse :=
  fun o _ _ b => ⟨unpack_pack o, fun hb => hb ▸ pack_unpack o b⟩

end Sys2Proof.Proofs
end

section
/-! PROOFS. The layout: offsets and total size as sums of the field sizes, the layout check's first bad field, and LSIZE
(41_field_codec.md R140, R141, R143-R145). -/

namespace Sys2Proof.Proofs

open Sys2Proof Sys2Proof.Machine Sys2Proof.Laws

/-! ## Offsets (R140, R143) -/

section Offsets

variable {ν : Type} {lay lay' : Layout ν} {i : Nat} {f : LayoutField ν}

@[simp] theorem fieldOffset_zero : fieldOffset lay 0 = 0 := rfl

@[simp] theorem fieldOffset_cons_succ : fieldOffset (f :: lay) (i + 1) = f.size + fieldOffset lay i := rfl

theorem fieldOffset_eq_sum_take : fieldOffset lay i = ((lay.map LayoutField.size).take i).sum := by
  rw [fieldOffset, List.map_take]

/-- Nothing of a field but its size moves another field. -/
theorem fieldOffset_congr (h : lay.map LayoutField.size = lay'.map LayoutField.size) :
    fieldOffset lay i = fieldOffset lay' i := by
  rw [fieldOffset_eq_sum_take, h, fieldOffset_eq_sum_take]

/-- A field lies below the layout's total size. -/
theorem fieldOffset_add_size_le (hi : lay[i]? = some f) : fieldOffset lay i + f.size ≤ totalSize lay := by
  induction lay generalizing i with
  | nil => cases hi
  | cons g lay ih =>
    rw [totalSize_cons]
    cases i with
    | zero => cases hi; simp
    | succ i =>
      have := ih hi
      rw [fieldOffset_cons_succ]
      omega

end Offsets

/-- Settles O40: NATIVE_LE is INFO bit 24, and a field's size does not depend on its order. -/
theorem nativeOrderResolution : Obligations.NativeOrderResolution := by
  intro s native lay i o
  have hsize : (lay.map fun f => { f with order := o }).map LayoutField.size = lay.map LayoutField.size := List.map_map
  refine ⟨fieldOffset_congr hsize, rfl, rfl, rfl, ?_⟩
  obtain ⟨-, hbit, -⟩ := infoWord_upper_bits
  rw [busRead_info, Order.eff]
  simp only [hbit]
  cases Config.nativeOrder <;> rfl

/-! ## The layout check (R141) -/

/-- The cumulative size of the descriptors before field `i`. -/
def descOffset (s : State) (i : Nat) : Nat := ((List.range i).map s.descSizeAt).sum

@[simp] theorem descOffset_zero (s : State) : descOffset s 0 = 0 := rfl

theorem descOffset_succ (s : State) (i : Nat) : descOffset s (i + 1) = descOffset s i + s.descSizeAt i := by
  rw [descOffset, List.range_succ, List.map_append, List.sum_append, List.map_singleton, List.sum_singleton, descOffset]

theorem descSizeAt_of_field {s : State} {i : Nat} {f : LayoutField Nat}
    (hf : descField i (s.layout.getD i 0) = some f) : s.descSizeAt i = f.size := by
  obtain ⟨-, -, hkind, -, -⟩ := descField_eq_some hf
  rw [State.descSizeAt, LayoutField.size, hkind]

theorem badField_iff {s : State} {i : Nat} :
    s.BadField i ↔ descField i (s.layout.getD i 0) = none ∨ Config.bufSize < descOffset s i + s.descSizeAt i := by
  have hvalid := descField_isSome_iff (i := i) (d := s.layout.getD i 0)
  rw [State.BadField, ← descOffset, descOffset_succ, ← Option.not_isSome_iff_eq_none, hvalid, Bool.not_eq_true]

/-- Field `k` is the first bad one from field `i` on. -/
def FirstBadFrom (s : State) (i k : Nat) : Prop :=
  i ≤ k ∧ k < s.lcount.toNat ∧ s.BadField k ∧ ∀ j, i ≤ j → j < k → ¬ s.BadField j

/-- The first bad field from `i` on is `i` itself, or else the first one after it. -/
theorem firstBadFrom_self {s : State} {i : Nat} (hi : i < s.lcount.toNat) (hbad : s.BadField i) : FirstBadFrom s i i :=
  ⟨Nat.le_refl i, hi, hbad, fun _ hle hlt => absurd hle (Nat.not_le.mpr hlt)⟩

theorem firstBadFrom_of_succ {s : State} {i k : Nat} (hgood : ¬ s.BadField i) (h : FirstBadFrom s (i + 1) k) :
    FirstBadFrom s i k := by
  obtain ⟨hle, hlt, hbad, hbefore⟩ := h
  refine ⟨by omega, hlt, hbad, fun j hij hjk => ?_⟩
  obtain rfl | hij := Nat.eq_or_lt_of_le hij
  · exact hgood
  · exact hbefore j hij hjk

theorem firstBadFrom_unique {s : State} {i k k' : Nat} (h : FirstBadFrom s i k) (h' : FirstBadFrom s i k') :
    k = k' := by
  obtain ⟨hle, -, hbad, hbefore⟩ := h
  obtain ⟨hle', -, hbad', hbefore'⟩ := h'
  refine Nat.le_antisymm (Nat.le_of_not_lt fun hlt => ?_) (Nat.le_of_not_lt fun hlt => ?_)
  · exact hbefore k' hle' hlt hbad'
  · exact hbefore' k hle hlt hbad

theorem descriptors_drop {s : State} {i : Nat} (hle : s.lcount.toNat ≤ 64) (hi : i < s.lcount.toNat) :
    s.descriptors.drop i = s.layout.getD i 0 :: s.descriptors.drop (i + 1) := by
  have hlen : i < s.descriptors.length := by rw [descriptors_length]; omega
  have hget := descriptors_getElem? hi (hi.trans_le hle)
  rw [List.getElem?_eq_getElem hlen] at hget
  rw [List.drop_eq_getElem_cons hlen, Option.some.inj hget]

/-- The scan stops at a bad field. -/
theorem layoutScan_of_bad {s : State} {i : Nat} (hbad : s.BadField i) (ds : List Word) :
    layoutScan i (descOffset s i) (s.layout.getD i 0 :: ds) = .error i := by
  rw [layoutScan]
  cases hf : descField i (s.layout.getD i 0) with
  | none => rfl
  | some f =>
    have hover := (badField_iff.mp hbad).resolve_left (by simp only [hf, reduceCtorEq, not_false_eq_true])
    rw [descSizeAt_of_field hf, ← inBuf_eq_false_iff] at hover
    simp [hover]

/-- The scan takes over any other field, and goes on behind it. -/
theorem layoutScan_of_good {s : State} {i : Nat} (hgood : ¬ s.BadField i) (ds : List Word) :
    ∃ f, layoutScan i (descOffset s i) (s.layout.getD i 0 :: ds) =
      (layoutScan (i + 1) (descOffset s (i + 1)) ds).map (f :: ·) := by
  rw [badField_iff, not_or, Nat.not_lt] at hgood
  obtain ⟨hsome, hfits⟩ := hgood
  obtain ⟨f, hf⟩ := Option.ne_none_iff_exists'.mp hsome
  rw [descSizeAt_of_field hf] at hfits
  refine ⟨f, ?_⟩
  simp only [layoutScan, hf, descOffset_succ, descSizeAt_of_field hf, inBuf_iff.mpr hfits, if_true]
  cases layoutScan (i + 1) (descOffset s i + f.size) ds <;> rfl

/-- The scan from field `i` on reports the first bad field there, or finds none. -/
theorem layoutScan_cases {s : State} (hle : s.lcount.toNat ≤ 64) (n i : Nat) (hi : i + n = s.lcount.toNat) :
    (∃ k, FirstBadFrom s i k ∧ layoutScan i (descOffset s i) (s.descriptors.drop i) = .error k) ∨
      (∀ k, i ≤ k → k < s.lcount.toNat → ¬ s.BadField k) ∧
        ∃ lay, layoutScan i (descOffset s i) (s.descriptors.drop i) = .ok lay := by
  induction n generalizing i with
  | zero =>
    refine .inr ⟨fun k _ _ => by omega, [], ?_⟩
    rw [List.drop_eq_nil_of_le (by rw [descriptors_length]; omega)]
    rfl
  | succ n ih =>
    have hlt : i < s.lcount.toNat := by omega
    rw [descriptors_drop hle hlt]
    by_cases hbad : s.BadField i
    · exact .inl ⟨i, firstBadFrom_self hlt hbad, layoutScan_of_bad hbad _⟩
    · obtain ⟨f, hscan⟩ := layoutScan_of_good hbad (s.descriptors.drop (i + 1))
      rw [hscan]
      obtain ⟨k, hk, herr⟩ | ⟨hnone, lay, hok⟩ := ih (i + 1) (by omega)
      · exact .inl ⟨k, firstBadFrom_of_succ hbad hk, by rw [herr]; rfl⟩
      · refine .inr ⟨fun k hik hk => ?_, f :: lay, by rw [hok]; rfl⟩
        obtain rfl | hik := Nat.eq_or_lt_of_le hik
        · exact hbad
        · exact hnone k hik hk

theorem layoutCheck_cases {s : State} (hle : s.lcount.toNat ≤ 64) :
    (∃ k, FirstBadFrom s 0 k ∧ s.layoutCheck = .error k) ∨
      (∀ k, k < s.lcount.toNat → ¬ s.BadField k) ∧ ∃ lay, s.layoutCheck = .ok lay := by
  rw [State.layoutCheck, Config.maxFields, if_neg (Nat.not_lt.mpr hle)]
  simpa using layoutScan_cases hle s.lcount.toNat 0 (Nat.zero_add _)

theorem layoutCheck_eq_error_iff {s : State} (hle : s.lcount.toNat ≤ 64) {i : Nat} :
    s.layoutCheck = .error i ↔ FirstBadFrom s 0 i := by
  obtain ⟨k, hk, herr⟩ | ⟨hnone, lay, hok⟩ := layoutCheck_cases hle
  · rw [herr, Except.error.injEq]
    exact ⟨fun heq => heq ▸ hk, fun hi => firstBadFrom_unique hk hi⟩
  · rw [hok]
    exact iff_of_false nofun fun ⟨_, hlt, hbad, _⟩ => hnone i hlt hbad

theorem layoutCheck_of_no_bad {s : State} (hle : s.lcount.toNat ≤ 64)
    (hnone : ∀ i, i < s.lcount.toNat → ¬ s.BadField i) : ∃ lay, s.layoutCheck = .ok lay := by
  obtain ⟨k, ⟨-, hlt, hbad, -⟩, -⟩ | ⟨-, hok⟩ := layoutCheck_cases hle
  · exact absurd hbad (hnone k hlt)
  · exact hok

/-- A checked layout has each descriptor's field under its index. -/
theorem layoutCheck_field {s : State} {lay : Layout Nat} (h : s.layoutCheck = .ok lay) {i : Nat}
    (hi : i < s.lcount.toNat) : lay[i]? = descField i (s.layout.getD i 0) := by
  obtain ⟨hle, -, -, hget⟩ := layoutCheck_ok h
  rw [hget, descriptors_getElem? hi (hi.trans_le hle), Option.bind_some]

theorem layoutCheck_totalSize {s : State} {lay : Layout Nat} (h : s.layoutCheck = .ok lay) :
    totalSize lay = ((List.range s.lcount.toNat).map s.descSizeAt).sum := by
  obtain ⟨-, hlen, -, -⟩ := layoutCheck_ok h
  refine congrArg List.sum (List.ext_getElem (by simpa using hlen) fun i hi _ => ?_)
  rw [List.length_map] at hi
  have hfield := layoutCheck_field h (hlen ▸ hi)
  rw [List.getElem?_eq_getElem hi] at hfield
  rw [List.getElem_map, List.getElem_map, List.getElem_range, descSizeAt_of_field hfield.symm]

/-- Settles O36: below 65 fields the check's two answers are the two cases of its scan. -/
theorem layoutCheckFindsFirstBadField : Obligations.LayoutCheckFindsFirstBadField := by
  refine fun s => ⟨fun i info => fieldCommand_of_layout_error, fun hgt => if_pos hgt, fun hle => ⟨fun i => ?_, ?_⟩⟩
  · simp only [layoutCheck_eq_error_iff hle, FirstBadFrom, Nat.zero_le, true_and, true_imp_iff]
  · intro hnone
    obtain ⟨lay, hlay⟩ := layoutCheck_of_no_bad hle hnone
    obtain ⟨-, hlen, hsize, -⟩ := layoutCheck_ok hlay
    exact ⟨lay, hlay, hlen, hsize, layoutCheck_totalSize hlay, fun i => layoutCheck_field hlay⟩

/-! ## LSIZE (R145) -/

theorem exec_lsize_of_error {s : State} {info : Nat} (h : s.layoutCheck = .error info) :
    exec .lsize s = .next (s.setChannel .layoutInvalid false false info) := by
  rw [exec, execLsize, h]
  rfl

theorem exec_lsize_of_ok {s : State} {lay : Layout Nat} (h : s.layoutCheck = .ok lay) :
    exec .lsize s = .next (s.setChannel .ok false false (totalSize lay)) := by
  rw [exec, execLsize, h]
  rfl

/-- Settles O37, on the two answers of the layout check. -/
theorem lsizeGivesLayoutSize : Obligations.LsizeGivesLayoutSize :=
  fun _ => ⟨fun _ hlay => ⟨layoutCheck_layoutSize hlay, exec_lsize_of_ok hlay⟩, fun _ => exec_lsize_of_error, rfl⟩

end Sys2Proof.Proofs
end

section
/-! PROOFS. One field: its integers, the values it holds, and that its value and its bytes give each other back
(41_field_codec.md R142, R146, R149, R152). -/

namespace Sys2Proof.Proofs

open Sys2Proof Sys2Proof.Machine Sys2Proof.Laws

/-! ## Integers (R142) -/

section Integers

variable {signed : Bool} {size u : Nat} {v : Int}

theorem two_pow_cast (n : Nat) : (2 : Int) ^ n = ((2 ^ n : Nat) : Int) := by norm_cast

theorem two_pow_width (hpos : 0 < size) : 2 ^ (8 * size) = 2 * 2 ^ (8 * size - 1) := by
  rw [← Nat.pow_succ', Nat.succ_eq_add_one, Nat.sub_add_cancel (by omega)]

theorem natCast_emod_of_lt {n : Nat} (hu : u < n) : (u : Int) % (n : Int) = u := by
  exact_mod_cast Nat.mod_eq_of_lt hu

theorem intValue_unsigned (size u : Nat) : intValue false size u = u := rfl

/-- Two's complement is the balanced remainder. -/
theorem intValue_signed (hpos : 0 < size) (hu : u < 2 ^ (8 * size)) :
    intValue true size u = (u : Int).bmod (2 ^ (8 * size)) := by
  rw [intValue, Bool.true_and, Int.bmod_def, natCast_emod_of_lt hu, two_pow_cast, two_pow_width hpos]
  simp only [decide_eq_true_eq]
  split_ifs <;> omega

theorem inRange_unsigned_iff : inRange false size v = true ↔ v % ((2 ^ (8 * size) : Nat) : Int) = v := by
  have hpos : (0 : Int) < ((2 ^ (8 * size) : Nat) : Int) := by positivity
  simp only [inRange, Bool.false_eq_true, if_false, Bool.and_eq_true, decide_eq_true_eq, two_pow_cast]
  exact ⟨fun ⟨hge, hlt⟩ => Int.emod_eq_of_lt hge hlt,
    fun h => ⟨h ▸ Int.emod_nonneg _ hpos.ne', h ▸ Int.emod_lt_of_pos _ hpos⟩⟩

theorem inRange_signed_iff (hpos : 0 < size) : inRange true size v = true ↔ v.bmod (2 ^ (8 * size)) = v := by
  rw [Int.bmod_eq_iff (by positivity), sub_self, two_pow_width hpos]
  simp only [inRange, if_true, Bool.and_eq_true, decide_eq_true_eq, dvd_zero, and_true, two_pow_cast]
  omega

/-- What bytes stand for is in the range. -/
theorem inRange_intValue (hpos : 0 < size) (hu : u < 2 ^ (8 * size)) :
    inRange signed size (intValue signed size u) = true := by
  cases signed with
  | false => rw [intValue_unsigned, inRange_unsigned_iff, natCast_emod_of_lt hu]
  | true => rw [intValue_signed hpos hu, inRange_signed_iff hpos, Int.bmod_bmod]

theorem intValue_emod (hpos : 0 < size) (hu : u < 2 ^ (8 * size)) :
    intValue signed size u % 2 ^ (8 * size) = u := by
  rw [two_pow_cast]
  cases signed with
  | false => exact natCast_emod_of_lt hu
  | true => rw [intValue_signed hpos hu, Int.bmod_emod, natCast_emod_of_lt hu]

theorem toNat_emod_lt (v : Int) (size : Nat) : (v % 2 ^ (8 * size)).toNat < 2 ^ (8 * size) := by
  have h := Int.emod_lt_of_pos v (b := 2 ^ (8 * size)) (by positivity)
  rw [two_pow_cast] at h ⊢
  omega

/-- An integer in the range is what its low bits stand for. -/
theorem intValue_of_inRange (hpos : 0 < size) (hv : inRange signed size v = true) :
    intValue signed size (v % 2 ^ (8 * size)).toNat = v := by
  have hcast : (((v % 2 ^ (8 * size)).toNat : Nat) : Int) = v % ((2 ^ (8 * size) : Nat) : Int) := by
    rw [Int.toNat_of_nonneg (Int.emod_nonneg _ (by positivity)), two_pow_cast]
  cases signed with
  | false => rw [intValue_unsigned, hcast, inRange_unsigned_iff.mp hv]
  | true => rw [intValue_signed hpos (toNat_emod_lt v size), hcast, Int.emod_bmod, (inRange_signed_iff hpos).mp hv]

/-- The extension of an integer's low bits to a record word stands for the integer (R148). -/
theorem wordValue_extend (hpos : 0 < size) (hle : size ≤ 4) (hu : u < 2 ^ (8 * size)) :
    wordValue signed (extend signed (8 * size) u) = intValue signed size u := by
  cases signed with
  | false =>
    rw [intValue_unsigned, wordValue, if_neg nofun, extend, if_neg nofun, toNat_register (by omega),
      BitVec.toNat_ofNat, Nat.mod_eq_of_lt hu]
  | true =>
    rw [intValue_signed hpos hu, wordValue, if_pos rfl, extend, if_pos rfl, BitVec.toInt_signExtend_of_le (by omega),
      BitVec.toInt_ofNat']

end Integers

/-! ## Values and bytes (R146, R149) -/

/-- A field's value that has its bytes: an integer in the field's range, or a block of the field's size. -/
def ValueFits {ν : Type} (f : LayoutField ν) : Value → Prop
  | .int v => f.kind.isBlock = false ∧ inRange f.signed f.size v = true
  | .bytes b => f.kind.isBlock = true ∧ b.length = f.size

section Fields

variable {ν : Type} {native : ByteOrder} {f : LayoutField ν} {b : List Byte} {v : Value}

theorem integer_size (hk : f.kind.isBlock = false) : 0 < f.size ∧ f.size ≤ 4 := by
  rw [LayoutField.size]
  revert hk
  cases f.kind with
  | byte | int16 | int32 => decide
  | block n => exact nofun

theorem unpack_lt_of_length (o : ByteOrder) {n : Nat} (hb : b.length = n) : unpack o b < 2 ^ (8 * n) :=
  hb ▸ unpack_lt o b

theorem fieldValue_of_block (hk : f.kind.isBlock = true) : fieldValue native f b = .bytes b := if_pos hk

theorem fieldValue_of_integer (hk : f.kind.isBlock = false) :
    fieldValue native f b = .int (intValue f.signed f.size (unpack (f.order.eff native) b)) := by
  rw [fieldValue, if_neg (Bool.eq_false_iff.mp hk)]

theorem valueFits_fieldValue (hb : b.length = f.size) : ValueFits f (fieldValue native f b) := by
  cases hk : f.kind.isBlock with
  | true =>
    rw [fieldValue_of_block hk]
    exact ⟨hk, hb⟩
  | false =>
    obtain ⟨hpos, -⟩ := integer_size hk
    rw [fieldValue_of_integer hk]
    exact ⟨hk, inRange_intValue hpos (unpack_lt_of_length _ hb)⟩

/-- A field's value encodes to the bytes it was decoded from. -/
theorem valueBytes_fieldValue (hb : b.length = f.size) : valueBytes native f (fieldValue native f b) = b := by
  cases hk : f.kind.isBlock with
  | true => rw [fieldValue_of_block hk, valueBytes]
  | false =>
    obtain ⟨hpos, -⟩ := integer_size hk
    rw [fieldValue_of_integer hk, valueBytes, intValue_emod hpos (unpack_lt_of_length _ hb), Int.toNat_natCast, ← hb,
      pack_unpack]

theorem valueBytes_length (hv : ValueFits f v) : (valueBytes native f v).length = f.size := by
  cases v with
  | int v => exact pack_length _ _ _
  | bytes b => exact hv.2

/-- A field's bytes decode to the value they were encoded from. -/
theorem fieldValue_valueBytes (hv : ValueFits f v) : fieldValue native f (valueBytes native f v) = v := by
  cases v with
  | int v =>
    obtain ⟨hk, hrange⟩ := hv
    obtain ⟨hpos, -⟩ := integer_size hk
    rw [fieldValue_of_integer hk, valueBytes, unpack_pack _ (toNat_emod_lt v f.size), intValue_of_inRange hpos hrange]
  | bytes b => exact fieldValue_of_block hv.1

end Fields

end Sys2Proof.Proofs
end

section
/-! PROOFS. The level-1 codec: the bytes of a layout cut into its fields' bytes, what `field_decode` and `field_encode`
answer, and that they are inverse (41_field_codec.md R144, R146, R147, R149, R152-R154). -/

namespace Sys2Proof.Proofs

open Sys2Proof Sys2Proof.Machine Sys2Proof.Laws

/-! ## A layout's bytes, field by field (R140) -/

theorem slice_eq_drop_take (B : List Byte) (i n : Nat) : slice B i (i + n) = (B.drop i).take n := by
  rw [slice, Nat.add_sub_cancel_left]

section Slices

variable {ν : Type} {lay : Layout ν} {B : List Byte} {i : Nat} {f : LayoutField ν}

/-- The bytes of `B` under field `i`. -/
def bytesUnder (lay : Layout ν) (B : List Byte) (i : Nat) (f : LayoutField ν) : List Byte :=
  (B.drop (fieldOffset lay i)).take f.size

theorem bytesUnder_length (hB : totalSize lay ≤ B.length) (hi : lay[i]? = some f) :
    (bytesUnder lay B i f).length = f.size := by
  have := fieldOffset_add_size_le hi
  rw [bytesUnder, List.length_take, List.length_drop]
  omega

/-- Bytes past the layout lie under no field. -/
theorem bytesUnder_append (hB : totalSize lay ≤ B.length) (hi : lay[i]? = some f) (T : List Byte) :
    bytesUnder lay (B ++ T) i f = bytesUnder lay B i f := by
  have := fieldOffset_add_size_le hi
  rw [bytesUnder, bytesUnder, List.drop_append_of_le_length (by omega),
    List.take_append_of_le_length (by rw [List.length_drop]; omega)]

theorem bytesUnder_cons_succ (g : LayoutField ν) :
    bytesUnder (g :: lay) B (i + 1) f = bytesUnder lay (B.drop g.size) i f := by
  rw [bytesUnder, bytesUnder, fieldOffset_cons_succ, List.drop_drop]

/-- The fields' bytes one after the other are the bytes the layout covers. -/
theorem flatten_bytesUnder (lay : Layout ν) (B : List Byte) :
    (lay.mapIdx (bytesUnder lay B)).flatten = B.take (totalSize lay) := by
  induction lay generalizing B with
  | nil => rfl
  | cons g lay ih =>
    have hhead : bytesUnder (g :: lay) B 0 g = B.take g.size := rfl
    have htail : (fun i => bytesUnder (g :: lay) B (i + 1)) = bytesUnder lay (B.drop g.size) :=
      funext fun i => funext fun f => bytesUnder_cons_succ g
    rw [List.mapIdx_cons, List.flatten_cons, hhead, htail, ih, totalSize_cons, List.take_add]

/-- Of byte sequences as long as the fields, one after the other, each lies under its field. -/
theorem bytesUnder_flatten {L : List (List Byte)} (hL : L.map List.length = lay.map LayoutField.size)
    (hi : lay[i]? = some f) {b : List Byte} (hb : L[i]? = some b) : bytesUnder lay L.flatten i f = b := by
  induction L generalizing lay i with
  | nil => cases hb
  | cons c L ih =>
    cases lay with
    | nil => cases hi
    | cons g lay =>
      obtain ⟨hc, hL⟩ := List.cons.inj hL
      cases i with
      | zero =>
        cases hi
        cases hb
        exact List.take_left' hc
      | succ i =>
        rw [bytesUnder_cons_succ, List.flatten_cons, List.drop_left' hc]
        exact ih hL hi hb

theorem flatten_length {L : List (List Byte)} (hL : L.map List.length = lay.map LayoutField.size) :
    L.flatten.length = totalSize lay := by
  rw [List.length_flatten, hL, totalSize]

end Slices

end Sys2Proof.Proofs
end

section
/-! PROOFS. `field_decode`: the decoded record, its values, and what they depend on (41_field_codec.md R144, R146, R147,
R154). -/

namespace Sys2Proof.Proofs

open Sys2Proof Sys2Proof.Machine Sys2Proof.Laws

section Decode

variable {ν : Type} {native : ByteOrder} {lay : Layout ν} {B : List Byte} {i : Nat} {f : LayoutField ν}

/-! ## The layout with one field's order changed (R154) -/

def withOrder (lay : Layout ν) (k : Nat) (o : Order) : Layout ν := lay.modify k fun f => { f with order := o }

theorem withOrder_getElem?_of_ne {k : Nat} (hne : i ≠ k) (o : Order) : (withOrder lay k o)[i]? = lay[i]? :=
  List.getElem?_modify_ne _ _ hne.symm

/-- What does not look at the order is the same for every field. -/
theorem map_withOrder {α : Type} (g : LayoutField ν → α) (hg : ∀ f o, g { f with order := o } = g f) (k : Nat)
    (o : Order) : (withOrder lay k o).map g = lay.map g := by
  refine List.ext_getElem? fun i => ?_
  rw [List.getElem?_map, withOrder, List.getElem?_modify, List.getElem?_map, Option.map_eq_map, Option.map_map]
  refine congrArg (Option.map · _) (funext fun f => ?_)
  rw [Function.comp_apply, apply_ite g, hg, ite_self]

theorem totalSize_withOrder (k : Nat) (o : Order) : totalSize (withOrder lay k o) = totalSize lay :=
  congrArg List.sum (map_withOrder LayoutField.size (fun _ _ => rfl) k o)

theorem fieldOffset_withOrder (k : Nat) (o : Order) : fieldOffset (withOrder lay k o) i = fieldOffset lay i :=
  fieldOffset_congr (map_withOrder LayoutField.size (fun _ _ => rfl) k o)

theorem layoutAdmitted_withOrder [DecidableEq ν] (k : Nat) (o : Order) :
    layoutAdmitted (withOrder lay k o) = layoutAdmitted lay := by
  have hall (l : Layout ν) : l.all LayoutField.admitted = (l.map LayoutField.admitted).all id := by simp
  simp only [layoutAdmitted, namesDistinct, hall, map_withOrder LayoutField.name (fun _ _ => rfl),
    map_withOrder LayoutField.admitted (fun _ _ => rfl)]

/-! ## The decoded record -/

/-- What `field_decode` gives for a buffer that covers the layout. -/
def decodedRecord (native : ByteOrder) (lay : Layout ν) (B : List Byte) : Record ν :=
  lay.mapIdx fun i f => (f.name, fieldValue native f (bytesUnder lay B i f))

theorem decodedRecord_names : (decodedRecord native lay B).map Prod.fst = lay.map LayoutField.name := by
  refine List.ext_getElem? fun i => ?_
  simp only [decodedRecord, List.getElem?_map, List.getElem?_mapIdx, Option.map_map]
  rfl

/-- Bytes past the layout do not matter. -/
theorem decodedRecord_append (hB : totalSize lay ≤ B.length) (T : List Byte) :
    decodedRecord native lay (B ++ T) = decodedRecord native lay B := by
  refine List.ext_getElem? fun i => ?_
  simp only [decodedRecord, List.getElem?_mapIdx]
  cases hi : lay[i]? with
  | none => rfl
  | some f => rw [Option.map_some, bytesUnder_append hB hi, Option.map_some]

/-- Among distinct names, each finds its own value. -/
theorem get_mapIdx_name [DecidableEq ν] {g : Nat → LayoutField ν → Value} (hnames : (lay.map LayoutField.name).Nodup)
    (hi : lay[i]? = some f) : Record.get (lay.mapIdx fun i f => (f.name, g i f)) f.name = some (g i f) := by
  induction lay generalizing g i with
  | nil => cases hi
  | cons h lay ih =>
    obtain ⟨hnot, hnames⟩ := List.nodup_cons.mp hnames
    rw [List.mapIdx_cons, Record.get, List.lookup_cons]
    cases i with
    | zero =>
      cases hi
      rw [beq_self_eq_true]
    | succ i =>
      have hne : f.name ≠ h.name := fun heq => hnot (heq ▸ List.mem_map_of_mem (List.mem_of_getElem? hi))
      rw [beq_eq_false_iff_ne.mpr hne]
      exact ih hnames hi

variable [DecidableEq ν]

theorem layoutAdmitted_names (hadm : layoutAdmitted lay = true) : (lay.map LayoutField.name).Nodup := by
  rw [layoutAdmitted, namesDistinct, Bool.and_eq_true, decide_eq_true_eq] at hadm
  exact hadm.1

theorem decodedRecord_get (hadm : layoutAdmitted lay = true) (hi : lay[i]? = some f) :
    (decodedRecord native lay B).get f.name = some (fieldValue native f (bytesUnder lay B i f)) :=
  get_mapIdx_name (layoutAdmitted_names hadm) hi

/-- A decoded record has no other names than the layout's. -/
theorem decodedRecord_get_of_not_name {n : ν} (hn : ∀ f ∈ lay, f.name ≠ n) :
    (decodedRecord native lay B).get n = none := by
  refine List.lookup_eq_none_iff.mpr fun p hp => bne_iff_ne.mpr fun heq => ?_
  have hmem := List.mem_map_of_mem (f := Prod.fst) hp
  rw [decodedRecord_names, ← heq] at hmem
  obtain ⟨f, hf, hname⟩ := List.mem_map.mp hmem
  exact hn f hf hname

theorem decodedRecord_withOrder_get (hadm : layoutAdmitted lay = true) (hi : lay[i]? = some f) {k : Nat} (hne : i ≠ k)
    (o : Order) :
    (decodedRecord native (withOrder lay k o) B).get f.name = (decodedRecord native lay B).get f.name := by
  rw [decodedRecord_get ((layoutAdmitted_withOrder k o).trans hadm) ((withOrder_getElem?_of_ne hne o).trans hi),
    decodedRecord_get hadm hi, bytesUnder, fieldOffset_withOrder, bytesUnder]

/-! ## `field_decode` (R146, R147) -/

theorem fieldDecode_of_lt (hadm : layoutAdmitted lay = true) (hB : B.length < totalSize lay) :
    fieldDecode native lay B = .err .bufferTooSmall (totalSize lay) := by
  rw [fieldDecode, if_pos hadm, if_pos hB]

theorem fieldDecode_of_le (hadm : layoutAdmitted lay = true) (hB : totalSize lay ≤ B.length) :
    fieldDecode native lay B = .ok (decodedRecord native lay B) := by
  simp only [fieldDecode, if_pos hadm, if_neg (Nat.not_lt.mpr hB), slice_eq_drop_take]
  rfl

theorem fieldDecode_eq_ok {R : Record ν} (h : fieldDecode native lay B = .ok R) :
    layoutAdmitted lay = true ∧ totalSize lay ≤ B.length ∧ R = decodedRecord native lay B := by
  cases hadm : layoutAdmitted lay with
  | false => rw [fieldDecode_eq_refused_iff.mpr hadm] at h; cases h
  | true =>
    by_cases hB : B.length < totalSize lay
    · rw [fieldDecode_of_lt hadm hB] at h; cases h
    · rw [fieldDecode_of_le hadm (Nat.not_lt.mp hB)] at h
      exact ⟨rfl, Nat.not_lt.mp hB, (Answer.ok.inj h).symm⟩

end Decode

/-- Settles O41, on the two sides of the layout's size. -/
theorem decodeNeedsLayoutSizeBytes : Obligations.DecodeNeedsLayoutSizeBytes := by
  intro ν _ native lay B T hadm
  refine ⟨if_pos hadm, fieldDecode_of_lt hadm, fun hB => ⟨_, fieldDecode_of_le hadm hB, ?_, decodedRecord_names⟩⟩
  have hBT : totalSize lay ≤ (B ++ T).length := hB.trans (by simp)
  rw [fieldDecode_of_le hadm hBT, decodedRecord_append hB]

/-- Settles O42: a value has its own format and its own offset, which no field's order moves. -/
theorem fieldsDecodeIndependently : Obligations.FieldsDecodeIndependently := by
  intro ν _ native lay B R hR
  obtain ⟨hadm, hB, rfl⟩ := fieldDecode_eq_ok hR
  refine ⟨fun i f => decodedRecord_get hadm, fun k o => ⟨decodedRecord native (withOrder lay k o) B, ?_, ?_⟩⟩
  · exact fieldDecode_of_le ((layoutAdmitted_withOrder k o).trans hadm) ((totalSize_withOrder k o).trans_le hB)
  · exact fun i f hi hne => decodedRecord_withOrder_get hadm hi hne o

end Sys2Proof.Proofs
end

section
/-! PROOFS. `field_encode`: the first failing field, the encoded bytes, and that it is inverse to `field_decode`
(41_field_codec.md R149, R152, R153). -/

namespace Sys2Proof.Proofs

open Sys2Proof Sys2Proof.Machine Sys2Proof.Laws

/-! ## The first failing field (R149, R151) -/

section FirstError

variable {ν : Type} {check : Nat → LayoutField ν → Option ErrCode} {lay : Layout ν} {i : Nat} {e : ErrCode}

/-- Field `i` of the layout fails a check with error `e`. -/
def FailsAt (check : Nat → LayoutField ν → Option ErrCode) (lay : Layout ν) (i : Nat) (e : ErrCode) : Prop :=
  ∃ f, lay[i]? = some f ∧ check i f = some e

theorem firstFieldError_cons_of_some {off : Nat} {f : LayoutField ν} (h : check off f = some e) :
    firstFieldError check off (f :: lay) = some (e, off) := by
  rw [firstFieldError, h]

theorem firstFieldError_cons_of_none {off : Nat} {f : LayoutField ν} (h : check off f = none) :
    firstFieldError check off (f :: lay) = firstFieldError check (off + 1) lay := by
  rw [firstFieldError, h]

theorem firstFieldError_of_getElem? {off k : Nat} {f : LayoutField ν} (hk : lay[k]? = some f)
    (he : check (off + k) f = some e) (hbefore : ∀ j g, j < k → lay[j]? = some g → check (off + j) g = none) :
    firstFieldError check off lay = some (e, off + k) := by
  induction lay generalizing off k with
  | nil => cases hk
  | cons g lay ih =>
    cases k with
    | zero =>
      cases hk
      exact firstFieldError_cons_of_some he
    | succ k =>
      have hshift (j : Nat) : off + (j + 1) = off + 1 + j := by omega
      have hg : check off g = none := hbefore 0 g (Nat.succ_pos k) rfl
      rw [firstFieldError_cons_of_none hg, hshift k]
      exact ih hk (hshift k ▸ he) fun j g hj hg => hshift j ▸ hbefore (j + 1) g (Nat.succ_lt_succ hj) hg

theorem firstFieldError_of_failsAt (h : FailsAt check lay i e) (hbefore : ∀ j e', j < i → ¬ FailsAt check lay j e') :
    firstFieldError check 0 lay = some (e, i) := by
  obtain ⟨f, hi, he⟩ := h
  rw [firstFieldError_of_getElem? hi (by rwa [Nat.zero_add]), Nat.zero_add]
  intro j g hj hg
  rw [Nat.zero_add]
  exact Option.eq_none_iff_forall_ne_some.mpr fun e' he' => hbefore j e' hj ⟨g, hg, he'⟩

/-- What the search reports did fail. -/
theorem failsAt_of_firstFieldError {off : Nat} (h : firstFieldError check off lay = some (e, i)) :
    ∃ k f, lay[k]? = some f ∧ check (off + k) f = some e := by
  induction lay generalizing off with
  | nil => cases h
  | cons g lay ih =>
    cases hg : check off g with
    | some e' =>
      rw [firstFieldError_cons_of_some hg] at h
      cases h
      exact ⟨0, g, rfl, hg⟩
    | none =>
      rw [firstFieldError_cons_of_none hg] at h
      obtain ⟨k, f, hk, he⟩ := ih h
      exact ⟨k + 1, f, hk, by rwa [show off + (k + 1) = off + 1 + k by omega]⟩

theorem firstFieldError_of_not_failsAt (h : ∀ i e, ¬ FailsAt check lay i e) : firstFieldError check 0 lay = none :=
  Option.eq_none_iff_forall_ne_some.mpr fun ⟨e, _⟩ he => by
    obtain ⟨k, f, hk, hfail⟩ := failsAt_of_firstFieldError he
    exact h k e ⟨f, hk, by rwa [Nat.zero_add] at hfail⟩

end FirstError

/-! ## One field of a record -/

section Encode

variable {ν : Type} [DecidableEq ν] {native : ByteOrder} {R R' : Record ν} {lay : Layout ν} {f : LayoutField ν}
  {i : Nat} {e : ErrCode}

theorem encodeFieldError_eq_some_iff : encodeFieldError R f = some e ↔
    (R.get f.name = none ∧ e = .missingField) ∨
      ∃ v, R.get f.name = some (.int v) ∧ inRange f.signed f.size v = false ∧ e = .valueRange := by
  unfold encodeFieldError
  match R.get f.name with
  | none => simpa using eq_comm
  | some (.bytes b) => simp
  | some (.int v) => cases h : inRange f.signed f.size v <;> simp [h, eq_comm (a := e)]

theorem recordFieldFails_iff : RecordFieldFails R lay i e ↔ FailsAt (fun _ => encodeFieldError R) lay i e := by
  simp only [RecordFieldFails, FailsAt, encodeFieldError_eq_some_iff]

/-- The record has a value for the field that has its bytes. -/
def FieldFits (R : Record ν) (f : LayoutField ν) : Prop := ∃ v, R.get f.name = some v ∧ ValueFits f v

theorem kindMatches_int_iff {v : Int} (hv : R.get f.name = some (.int v)) :
    kindMatches R f = true ↔ f.kind.isBlock = false := by
  rw [kindMatches, hv]
  cases f.kind <;> simp [Kind.isBlock]

theorem kindMatches_bytes_iff {b : List Byte} (hb : R.get f.name = some (.bytes b)) :
    kindMatches R f = true ↔ f.kind.isBlock = true ∧ b.length = f.size := by
  rw [kindMatches, hb, LayoutField.size]
  cases f.kind <;> simp [Kind.isBlock, Kind.size]

theorem fieldFits_iff : FieldFits R f ↔ kindMatches R f = true ∧ encodeFieldError R f = none := by
  unfold FieldFits encodeFieldError
  cases hR : R.get f.name with
  | none => simp
  | some v =>
    cases v with
    | int v => simp [kindMatches_int_iff hR, ValueFits]
    | bytes b => simp [kindMatches_bytes_iff hR, ValueFits]

/-! ## The encoded bytes -/

/-- A field's bytes in the encoded record. -/
def recordBytes (native : ByteOrder) (R : Record ν) (f : LayoutField ν) : List Byte :=
  match R.get f.name with
  | some v => valueBytes native f v
  | none => []

theorem recordBytes_of_get {v : Value} (hv : R.get f.name = some v) :
    recordBytes native R f = valueBytes native f v := by
  rw [recordBytes, hv]

theorem map_recordBytes_length (hfits : ∀ f ∈ lay, FieldFits R f) :
    (lay.map (recordBytes native R)).map List.length = lay.map LayoutField.size := by
  rw [List.map_map]
  refine List.map_congr_left fun f hf => ?_
  obtain ⟨v, hv, hfit⟩ := hfits f hf
  rw [Function.comp_apply, recordBytes_of_get hv, valueBytes_length hfit]

/-- Each field's bytes lie under it in the encoded record. -/
theorem bytesUnder_recordBytes (hfits : ∀ f ∈ lay, FieldFits R f) (hi : lay[i]? = some f) {v : Value}
    (hv : R.get f.name = some v) :
    bytesUnder lay (lay.map (recordBytes native R)).flatten i f = valueBytes native f v :=
  bytesUnder_flatten (map_recordBytes_length hfits) hi
    (by rw [List.getElem?_map, hi, Option.map_some, recordBytes_of_get hv])

theorem fieldEncode_of_fits (hadm : layoutAdmitted lay = true) (hfits : ∀ f ∈ lay, FieldFits R f) :
    fieldEncode native R lay = .ok (lay.map (recordBytes native R)).flatten := by
  have hkinds : lay.all (kindMatches R) = true := List.all_eq_true.mpr fun f hf => (fieldFits_iff.mp (hfits f hf)).1
  have hnone : firstFieldError (fun _ => encodeFieldError R) 0 lay = none :=
    firstFieldError_of_not_failsAt fun i e ⟨f, hi, he⟩ => by
      have hgood := (fieldFits_iff.mp (hfits f (List.mem_of_getElem? hi))).2
      cases hgood.symm.trans he
  simp only [fieldEncode, hadm, hkinds, Bool.and_self, if_true, hnone, List.flatMap_def]
  rfl

theorem fieldEncode_of_fails (hadm : layoutAdmitted lay = true) (hkinds : lay.all (kindMatches R) = true)
    (hfail : RecordFieldFails R lay i e) (hbefore : ∀ j e', j < i → ¬ RecordFieldFails R lay j e') :
    fieldEncode native R lay = .err e i := by
  simp only [recordFieldFails_iff] at hfail hbefore
  simp only [fieldEncode, hadm, hkinds, Bool.and_self, if_true, firstFieldError_of_failsAt hfail hbefore]

theorem fieldFits_of_no_fail (hkinds : lay.all (kindMatches R) = true) (hnone : ∀ i e, ¬ RecordFieldFails R lay i e) :
    ∀ f ∈ lay, FieldFits R f := by
  intro f hf
  obtain ⟨i, hi⟩ := List.mem_iff_getElem?.mp hf
  refine fieldFits_iff.mpr ⟨List.all_eq_true.mp hkinds f hf, Option.eq_none_iff_forall_ne_some.mpr fun e he => ?_⟩
  exact hnone i e (recordFieldFails_iff.mpr ⟨f, hi, he⟩)

theorem fieldFits_of_value (hkind : kindMatches R f = true) (hsome : (R.get f.name).isSome = true)
    (hrange : ∀ v, R.get f.name = some (.int v) → inRange f.signed f.size v = true) : FieldFits R f := by
  refine fieldFits_iff.mpr ⟨hkind, Option.eq_none_iff_forall_ne_some.mpr fun e he => ?_⟩
  obtain ⟨hnone, -⟩ | ⟨v, hv, hout, -⟩ := encodeFieldError_eq_some_iff.mp he
  · exact absurd hsome (by rw [hnone]; nofun)
  · exact Bool.eq_false_iff.mp hout (hrange v hv)

/-- Entries under other names do not matter. -/
theorem fieldEncode_congr (hR : ∀ f ∈ lay, R'.get f.name = R.get f.name) :
    fieldEncode native R' lay = fieldEncode native R lay := by
  have hkinds : lay.all (kindMatches R') = lay.all (kindMatches R) := by
    rw [Bool.eq_iff_iff, List.all_eq_true, List.all_eq_true]
    exact forall₂_congr fun f hf => by rw [kindMatches, hR f hf, kindMatches]
  have herr : firstFieldError (fun _ => encodeFieldError R') 0 lay =
      firstFieldError (fun _ => encodeFieldError R) 0 lay := firstFieldError_congr fun k f hk => by
      rw [encodeFieldError, hR f (List.mem_of_getElem? hk), encodeFieldError]
  have hbytes : lay.flatMap (recordBytes native R') = lay.flatMap (recordBytes native R) :=
    List.flatMap_congr fun f hf => by rw [recordBytes, hR f hf, recordBytes]
  unfold fieldEncode
  rw [hkinds, herr]
  split
  · split
    · rfl
    · exact congrArg Answer.ok hbytes
  · rfl

end Encode

/-- Settles O43: the first field that fails decides, and without one every field has its bytes. -/
theorem encodeReportsFirstFailingField : Obligations.EncodeReportsFirstFailingField := by
  intro ν _ native R R' lay hadm
  refine ⟨fun hkinds => ?_, fieldEncode_congr, fun hkinds i e => fieldEncode_of_fails hadm hkinds,
    fun hkinds hnone => ?_⟩
  · rw [fieldEncode, hkinds, Bool.and_false, if_neg nofun]
  · have hfits := fieldFits_of_no_fail hkinds hnone
    exact ⟨_, fieldEncode_of_fits hadm hfits, flatten_length (map_recordBytes_length hfits), fun i f hi =>
      ⟨fun b => bytesUnder_recordBytes hfits hi, fun v => bytesUnder_recordBytes hfits hi⟩⟩

/-! ## The two inverses at level 1 (R152, R153) -/

section Inverse

variable {ν : Type} [DecidableEq ν] {native : ByteOrder} {R : Record ν} {lay : Layout ν} {B : List Byte} {i : Nat}
  {f : LayoutField ν}

/-- A field's bytes in the encoded record decode to its value. -/
theorem decodedRecord_of_encoded (hadm : layoutAdmitted lay = true) (hfits : ∀ f ∈ lay, FieldFits R f)
    (hf : f ∈ lay) :
    (decodedRecord native lay (lay.map (recordBytes native R)).flatten).get f.name = R.get f.name := by
  obtain ⟨i, hi⟩ := List.mem_iff_getElem?.mp hf
  obtain ⟨v, hv, hfit⟩ := hfits f hf
  rw [decodedRecord_get hadm hi, bytesUnder_recordBytes hfits hi hv, fieldValue_valueBytes hfit, hv]

theorem fieldDecode_fieldEncode (hadm : layoutAdmitted lay = true) (hfits : ∀ f ∈ lay, FieldFits R f) :
    ∃ out R', fieldEncode native R lay = .ok out ∧ fieldDecode native lay out = .ok R' ∧
      (∀ f ∈ lay, R'.get f.name = R.get f.name) ∧ ∀ n, (∀ f ∈ lay, f.name ≠ n) → R'.get n = none := by
  have hlen := flatten_length (map_recordBytes_length (native := native) hfits)
  exact ⟨_, _, fieldEncode_of_fits hadm hfits, fieldDecode_of_le hadm hlen.ge,
    fun f => decodedRecord_of_encoded hadm hfits, fun n => decodedRecord_get_of_not_name⟩

theorem fieldEncode_decodedRecord (hadm : layoutAdmitted lay = true) (hB : totalSize lay ≤ B.length) :
    fieldEncode native (decodedRecord native lay B) lay = .ok (B.take (totalSize lay)) := by
  have hfits : ∀ f ∈ lay, FieldFits (decodedRecord native lay B) f := fun f hf => by
    obtain ⟨i, hi⟩ := List.mem_iff_getElem?.mp hf
    exact ⟨_, decodedRecord_get hadm hi, valueFits_fieldValue (bytesUnder_length hB hi)⟩
  have hbytes : lay.map (recordBytes native (decodedRecord native lay B)) = lay.mapIdx (bytesUnder lay B) := by
    refine List.ext_getElem? fun i => ?_
    rw [List.getElem?_map, List.getElem?_mapIdx]
    cases hi : lay[i]? with
    | none => rfl
    | some f =>
      rw [Option.map_some, recordBytes_of_get (decodedRecord_get hadm hi),
        valueBytes_fieldValue (bytesUnder_length hB hi), Option.map_some]
  rw [fieldEncode_of_fits hadm hfits, hbytes, flatten_bytesUnder]

end Inverse

end Sys2Proof.Proofs
end

section
/-! PROOFS. FDECODE and FENCODE: their outcomes, and that each gives back what the other wrote (41_field_codec.md R148,
R151-R153). -/

namespace Sys2Proof.Proofs

open Sys2Proof Sys2Proof.Machine Sys2Proof.Laws

/-! ## The record FDECODE writes (R148) -/

section DecodeRecord

variable {s : State} {native : ByteOrder} {lay : Layout Nat} {i : Nat} {f : LayoutField Nat}

theorem decodeRecord_rval_of_field {i : Fin 64} (hi : lay[i.val]? = some f) :
    (s.decodeRecord native lay).rval.get i = decodedWord native f (bytesUnder lay s.ibuf i.val f) := by
  rw [State.decodeRecord, setRecord_rval, Vector.get_eq_getElem, Vector.getElem_ofFn, hi]
  exact congrArg (decodedWord native f) (slice_eq_drop_take _ _ _)

theorem decodeRecord_rval_of_none {i : Fin 64} (hi : lay[i.val]? = none) :
    (s.decodeRecord native lay).rval.get i = 0 := by
  rw [State.decodeRecord, setRecord_rval, Vector.get_eq_getElem, Vector.getElem_ofFn, hi]

theorem rvalAt_eq_get (h : i < 64) : s.rvalAt i = s.rval.get ⟨i, h⟩ := by
  simp [State.rvalAt, Vector.getD, Vector.get, h]

theorem decodedWord_of_integer (hk : f.kind.isBlock = false) (b : List Byte) :
    decodedWord native f b = extend f.signed (8 * f.size) (unpack (f.order.eff native) b) :=
  if_neg (Bool.eq_false_iff.mp hk)

/-- An integer's bits above its width are 0 before they are extended. -/
theorem decodedWord_of_length {b : List Byte} (hb : b.length = f.size) :
    decodedWord native f b =
      if f.kind.isBlock then 0
      else if f.signed then (BitVec.ofNat (8 * f.size) (unpack (f.order.eff native) b)).signExtend 32
      else BitVec.ofNat 32 (unpack (f.order.eff native) b) := by
  have hlow : (BitVec.ofNat (8 * f.size) (unpack (f.order.eff native) b)).setWidth 32 =
      BitVec.ofNat 32 (unpack (f.order.eff native) b) := by
    refine BitVec.eq_of_toNat_eq ?_
    rw [BitVec.toNat_setWidth, BitVec.toNat_ofNat, BitVec.toNat_ofNat, Nat.mod_eq_of_lt (unpack_lt_of_length _ hb)]
  rw [decodedWord, extend, ← hlow]
  rfl

theorem decodeRecord_rimg_read (k : Nat) :
    (s.decodeRecord native lay).rimg.read k = if k < totalSize lay then s.ibuf.getD k 0 else 0 := by
  rw [State.decodeRecord, setRecord_rimg, read_ofBytes, if_pos (Nat.zero_le k), slice, List.drop_zero, Nat.sub_zero,
    Nat.sub_zero, List.getD_eq_getElem?_getD, List.getElem?_take, apply_ite (Option.getD · 0),
    ← List.getD_eq_getElem?_getD, Option.getD_none]

/-- RPRES after FDECODE: the fields of the layout, of which there are at most 64. -/
theorem decodeRecord_present (hi : i < 64) :
    (s.decodeRecord native lay).rpres.getLsbD i = decide (i < lay.length) := by
  rw [State.decodeRecord, setRecord_rpres, presentBelow, BitVec.getLsbD_ofNat, Nat.testBit_two_pow_sub_one,
    decide_eq_true hi, Bool.true_and]

theorem decodeRecord_readBytes (hB : totalSize lay ≤ s.ibuf.length) (hi : lay[i]? = some f) :
    (s.decodeRecord native lay).rimg.readBytes (fieldOffset lay i) f.size = bytesUnder lay s.ibuf i f := by
  have hend := fieldOffset_add_size_le hi
  refine List.ext_getElem (by rw [readBytes_length, bytesUnder_length hB hi]) fun k hk _ => ?_
  rw [readBytes_length] at hk
  simp only [Memory.readBytes, List.getElem_map, List.getElem_range, decodeRecord_rimg_read, bytesUnder,
    List.getElem_take, List.getElem_drop]
  rw [if_pos (by omega), List.getD_eq_getElem _ _ (by omega)]

/-- Every field's view after FDECODE is the value that `field_decode` reads from its bytes. -/
theorem decodeRecord_view (hlen : lay.length ≤ 64) (hB : totalSize lay ≤ s.ibuf.length) (hi : lay[i]? = some f) :
    (s.decodeRecord native lay).recordView lay i = some (fieldValue native f (bytesUnder lay s.ibuf i f)) := by
  have hlt : i < lay.length := (List.getElem?_eq_some_iff.mp hi).1
  have h64 : i < 64 := hlt.trans_le hlen
  have hp : (s.decodeRecord native lay).present i = true := by
    rw [State.present, decodeRecord_present h64, decide_eq_true hlt]
  cases hk : f.kind.isBlock with
  | true =>
    obtain ⟨n, hn⟩ := isBlock_iff.mp hk
    have hsize : f.size = n := by rw [LayoutField.size, hn, Kind.size]
    rw [recordView_of_block hi hp hn, fieldValue_of_block hk, ← hsize, decodeRecord_readBytes hB hi]
  | false =>
    obtain ⟨hpos, hle⟩ := integer_size hk
    rw [recordView_of_integer hi hp hk, fieldValue_of_integer hk, rvalAt_eq_get h64, decodeRecord_rval_of_field hi,
      decodedWord_of_integer hk, wordValue_extend hpos hle (unpack_lt_of_length _ (bytesUnder_length hB hi))]

end DecodeRecord

/-! ## FDECODE (R148) -/

/-- The state after an FDECODE that succeeds. -/
def decodedState (s : State) (lay : Layout Nat) : State :=
  (s.decodeRecord Config.nativeOrder lay).setChannel .ok false false (totalSize lay)

theorem setChannel_recordView (s : State) (e : ErrCode) (h c : Bool) (n : Nat) (lay : Layout Nat) (i : Nat) :
    (s.setChannel e h c n).recordView lay i = s.recordView lay i := rfl

section Decoded

variable {s : State} {lay : Layout Nat} {i : Nat}

@[simp] theorem decodedState_err : (decodedState s lay).err = .ok := rfl

@[simp] theorem decodedState_rval : (decodedState s lay).rval = (s.decodeRecord Config.nativeOrder lay).rval := by
  rw [decodedState, setChannel_rval]

@[simp] theorem decodedState_rimg : (decodedState s lay).rimg = (s.decodeRecord Config.nativeOrder lay).rimg := by
  rw [decodedState, setChannel_rimg]

@[simp] theorem decodedState_rpres : (decodedState s lay).rpres = (s.decodeRecord Config.nativeOrder lay).rpres := by
  rw [decodedState, setChannel_rpres]

@[simp] theorem decodedState_recordView :
    (decodedState s lay).recordView lay i = (s.decodeRecord Config.nativeOrder lay).recordView lay i := by
  rw [decodedState, setChannel_recordView]

@[simp] theorem decodedState_layoutCheck : (decodedState s lay).layoutCheck = s.layoutCheck := by
  rw [decodedState, setChannel_layoutCheck, State.decodeRecord, setRecord_layoutCheck]

/-- FDECODE writes the record and the result channel only. -/
theorem eq_of_setRecord {t : State} {rval : Vector Word 64} {rimg : Memory} {rpres : BitVec 64} {e : ErrCode} {n : Nat}
    (h : t = (s.setRecord rval rimg rpres).setChannel e false false n) : t = { s with
      rval := t.rval, rimg := t.rimg, rpres := t.rpres, result := BitVec.ofNat 16 n, err := e, hdrOk := false
      csumOk := false } := by
  rw [h]
  rfl

theorem exec_fdecode_of_error {info : Nat} (h : s.layoutCheck = .error info) :
    exec .fdecode s = .next (s.clearRecord.setChannel .layoutInvalid false false info) := by
  rw [exec, execFdecode, h]
  rfl

theorem exec_fdecode_of_lt (hlay : s.layoutCheck = .ok lay) (hshort : s.ibuf.length < totalSize lay) :
    exec .fdecode s = .next (s.clearRecord.setChannel .bufferTooSmall false false (totalSize lay)) := by
  rw [exec, execFdecode, hlay]
  exact if_pos hshort

theorem exec_fdecode_of_le (hlay : s.layoutCheck = .ok lay) (hB : totalSize lay ≤ s.ibuf.length) :
    exec .fdecode s = .next (decodedState s lay) := by
  rw [exec, execFdecode, hlay]
  exact if_neg (Nat.not_lt.mpr hB)

theorem decodedState_present (hlay : s.layoutCheck = .ok lay) (hi : i < 64) :
    (decodedState s lay).rpres.getLsbD i = decide (i < s.lcount.toNat) := by
  obtain ⟨-, hlen, -, -⟩ := layoutCheck_ok hlay
  rw [decodedState_rpres, decodeRecord_present hi, hlen]

/-- In a checked layout a field's name is its index. -/
theorem decodedRecord_get_index (hlay : s.layoutCheck = .ok lay) {f : LayoutField Nat} (hi : lay[i]? = some f)
    (native : ByteOrder) (B : List Byte) :
    (decodedRecord native lay B).get i = some (fieldValue native f (bytesUnder lay B i f)) := by
  rw [← decodedRecord_get (layoutCheck_admitted hlay) hi, layoutCheck_name hlay hi]

/-- The record FDECODE writes is the one that `field_decode` gives. -/
theorem decodedState_view (hlay : s.layoutCheck = .ok lay) (hB : totalSize lay ≤ s.ibuf.length)
    {f : LayoutField Nat} (hi : lay[i]? = some f) :
    (decodedState s lay).recordView lay i = (decodedRecord Config.nativeOrder lay s.ibuf).get i := by
  obtain ⟨hle, hlen, -, -⟩ := layoutCheck_ok hlay
  rw [decodedState_recordView, decodeRecord_view (hlen.trans_le hle) hB hi, decodedRecord_get_index hlay hi]

end Decoded

/-- Settles O45: the two errors clear the record; on success each part of it is what `decodeRecord` writes there. -/
theorem fdecodeOutcomes : Obligations.FdecodeOutcomes := by
  refine fun s => ⟨fun info => exec_fdecode_of_error, fun lay => exec_fdecode_of_lt, fun lay hlay hB => ?_, rfl⟩
  obtain ⟨-, hlen, -, -⟩ := layoutCheck_ok hlay
  refine ⟨_, _, exec_fdecode_of_le hlay hB, eq_of_setRecord rfl, fun i => ?_, fun i => decodedState_present hlay,
    fun k => by rw [decodedState_rimg, decodeRecord_rimg_read], fieldDecode_of_le (layoutCheck_admitted hlay) hB,
    fun i hi => ?_⟩
  · rw [decodedState_rval]
    cases hi : lay[i.val]? with
    | none => exact decodeRecord_rval_of_none hi
    | some f => exact (decodeRecord_rval_of_field hi).trans (decodedWord_of_length (bytesUnder_length hB hi))
  · have hfield : lay[i]? = some lay[i] := List.getElem?_eq_getElem (hlen ▸ hi)
    exact ⟨Option.isSome_of_eq_some (decodedRecord_get_index hlay hfield _ _), decodedState_view hlay hB hfield⟩

end Sys2Proof.Proofs
end

section
/-! PROOFS. FENCODE's outcomes, and FENCODE and FDECODE one after the other (41_field_codec.md R151-R153). -/

namespace Sys2Proof.Proofs

open Sys2Proof Sys2Proof.Machine Sys2Proof.Laws

/-! ## FENCODE (R151) -/

section Encode

variable {s : State} {lay : Layout Nat} {i : Nat} {f : LayoutField Nat} {e : ErrCode}

theorem wordInRange_iff : s.WordInRange i f ↔ s.rvalAt i = extend f.signed f.width (s.rvalAt i).toNat := Iff.rfl

theorem encodeError_eq_some_iff : s.encodeError i f = some e ↔
    (s.rpres.getLsbD i = false ∧ e = .missingField) ∨
      (s.rpres.getLsbD i = true ∧ f.kind.isBlock = false ∧ ¬ s.WordInRange i f ∧ e = .valueRange) := by
  rw [State.encodeError, State.present, wordInRange_iff]
  cases s.rpres.getLsbD i with
  | false => simp [eq_comm (a := e)]
  | true =>
    simp only [Bool.not_true, Bool.false_eq_true, if_false, Option.ite_none_left_eq_some, Option.some.injEq,
      Bool.not_eq_true, eq_comm (a := e), reduceCtorEq, false_and, false_or, true_and]

theorem encodeFails_iff : s.EncodeFails lay i e ↔ FailsAt s.encodeError lay i e := by
  simp only [State.EncodeFails, FailsAt, encodeError_eq_some_iff]

/-- An error of a field is no OK. -/
theorem encodeError_ne_ok : s.encodeError i f ≠ some .ok := by
  rw [ne_eq, encodeError_eq_some_iff]
  simp

theorem map_encodedField_length (native : ByteOrder) :
    (lay.mapIdx (s.encodedField native lay)).map List.length = lay.map LayoutField.size := by
  refine List.ext_getElem? fun i => ?_
  simp only [List.getElem?_map, List.getElem?_mapIdx, Option.map_map]
  exact congrArg (Option.map · _) (funext fun f => encodedField_length native lay s i f)

theorem exec_fencode_of_layout_error {info : Nat} (h : s.layoutCheck = .error info) :
    exec .fencode s = .next ((s.setOutput []).setChannel .layoutInvalid false false info) := by
  rw [exec, execFencode, h]
  rfl

end Encode

/-- Settles O46: the first field that fails decides, and without one every field has its bytes. -/
theorem fencodeOutcomes : Obligations.FencodeOutcomes := by
  refine fun s => ⟨fun info => exec_fencode_of_layout_error, fun lay hlay i e hfail hbefore => ?_,
    fun lay hlay hgood => ?_, rfl⟩
  · simp only [encodeFails_iff] at hfail hbefore
    exact exec_fencode_of_error hlay (firstFieldError_of_failsAt hfail hbefore)
  · have hnone : firstFieldError s.encodeError 0 lay = none := firstFieldError_of_not_failsAt fun i e hfail => by
      obtain ⟨f, hi, ⟨hp, -⟩ | ⟨-, hk, hword, -⟩⟩ := encodeFails_iff.mpr hfail
      · exact absurd (hgood i f hi).1 (Bool.eq_false_iff.mp hp)
      · exact hword ((hgood i f hi).2 hk)
    have hlen := map_encodedField_length (s := s) (lay := lay) Config.nativeOrder
    refine ⟨_, exec_fencode_of_none hlay hnone, rfl, flatten_length hlen, fun i f hi => ?_⟩
    exact bytesUnder_flatten hlen hi (by rw [List.getElem?_mapIdx, hi]; rfl)

/-! ## FENCODE and FDECODE one after the other (R152, R153) -/

section RoundTrip

variable {s t : State} {lay : Layout Nat}

theorem recordOf_fits (hlay : s.layoutCheck = .ok lay) (hnone : firstFieldError s.encodeError 0 lay = none) :
    ∀ f ∈ lay, FieldFits (s.recordOf lay) f := by
  intro f hf
  obtain ⟨i, hi⟩ := List.mem_iff_getElem?.mp hf
  have hname := layoutCheck_name hlay hi
  have herr := firstFieldError_eq_none hnone hi
  rw [Nat.zero_add] at herr
  exact fieldFits_iff.mpr ⟨kindMatches_recordOf hi hname, (encodeFieldError_recordOf hi hname).trans herr⟩

/-- After an FENCODE that ends with OK every field has its bytes, and they are OBUF. -/
theorem fencode_of_ok (hlay : s.layoutCheck = .ok lay) (ht : exec .fencode s = .next t) (hok : t.err = .ok) :
    t.layoutCheck = .ok lay ∧ (∀ f ∈ lay, FieldFits (s.recordOf lay) f) ∧
      fieldEncode Config.nativeOrder (s.recordOf lay) lay = .ok t.obuf := by
  cases h : firstFieldError s.encodeError 0 lay with
  | some p =>
    obtain ⟨e, i⟩ := p
    obtain ⟨k, f, -, he⟩ := failsAt_of_firstFieldError h
    cases (exec_fencode_of_error hlay h).symm.trans ht
    obtain rfl : e = .ok := hok
    exact absurd he encodeError_ne_ok
  | none =>
    cases (exec_fencode_of_none hlay h).symm.trans ht
    exact ⟨hlay, recordOf_fits hlay h, fieldEncode_recordOf_of_none hlay h⟩

theorem fencode_obuf_length (ht : exec .fencode s = .next t) : t.obuf.length ≤ Config.bufSize := by
  obtain ⟨F, e, n, hF, rfl⟩ := fencode_cases ht
  exact hF

/-- FDECODE of the bytes that a record encodes to writes that record. -/
theorem decodedState_of_encoded {u : State} (hs : s.layoutCheck = .ok lay) (hu : u.layoutCheck = .ok lay)
    (hfits : ∀ f ∈ lay, FieldFits (s.recordOf lay) f)
    (hencode : fieldEncode Config.nativeOrder (s.recordOf lay) lay = .ok u.ibuf) :
    totalSize lay ≤ u.ibuf.length ∧ RecordsEqual lay s (decodedState u lay) := by
  obtain ⟨out, R', hout, hdec, hget, -⟩ := fieldDecode_fieldEncode (native := Config.nativeOrder)
    (layoutCheck_admitted hs) hfits
  cases hencode.symm.trans hout
  obtain ⟨-, hB, rfl⟩ := fieldDecode_eq_ok hdec
  refine ⟨hB, fun i hi => ?_⟩
  have hfield : lay[i]? = some lay[i] := List.getElem?_eq_getElem hi
  have hsame := hget lay[i] (List.getElem_mem hi)
  rw [layoutCheck_name hs hfield, recordOf_get] at hsame
  rw [decodedState_view hu hB hfield, hsame]

/-- FENCODE writes what `field_encode` gives for the record. -/
theorem exec_fencode_of_fieldEncode {out : List Byte} (hlay : s.layoutCheck = .ok lay)
    (hout : fieldEncode Config.nativeOrder (s.recordOf lay) lay = .ok out) :
    exec .fencode s = .next ((s.setOutput out).setChannel .ok false false out.length) := by
  obtain ⟨hok, -, -⟩ := fencodeComputesFieldEncode s lay hlay
  exact hok out hout

/-- The record that FDECODE writes encodes to the bytes the layout covers. -/
theorem fieldEncode_decodedState (hlay : s.layoutCheck = .ok lay) (hB : totalSize lay ≤ s.ibuf.length) :
    fieldEncode Config.nativeOrder ((decodedState s lay).recordOf lay) lay = .ok (s.ibuf.take (totalSize lay)) := by
  rw [← fieldEncode_decodedRecord (layoutCheck_admitted hlay) hB]
  refine fieldEncode_congr fun f hf => ?_
  obtain ⟨i, hi⟩ := List.mem_iff_getElem?.mp hf
  rw [layoutCheck_name hlay hi, recordOf_get, decodedState_view hlay hB hi]

/-- ICLR, IPUSH of bytes that fit and FDECODE decode exactly those bytes. -/
theorem execAll_refill_fdecode {bs : List Byte} (hlay : (s.setInput bs false).layoutCheck = .ok lay)
    (hfit : bs.length ≤ Config.bufSize) (hB : totalSize lay ≤ (s.setInput bs false).ibuf.length) :
    execAll (.iclr :: (bs.map .ipush ++ [.fdecode])) s = .next (decodedState (s.setInput bs false) lay) := by
  rw [execAll_refill bs [.fdecode] s hfit, execAll, exec_fdecode_of_le hlay hB]
  rfl

end RoundTrip

/-- Settles O47: at level 2 the record is the one that level 1 encodes and decodes. -/
theorem fieldRoundTrip : Obligations.FieldRoundTrip := by
  refine ⟨fun ν _ native lay R hadm hkinds hsome hrange => ?_, fun s t lay hlay ht hok => ?_⟩
  · have hfits : ∀ f ∈ lay, FieldFits R f := fun f hf =>
      fieldFits_of_value (List.all_eq_true.mp hkinds f hf) (hsome f hf) (hrange f hf)
    exact fieldDecode_fieldEncode hadm hfits
  · obtain ⟨hlay', hfits, hencode⟩ := fencode_of_ok hlay ht hok
    have hu : (t.setInput t.obuf false).layoutCheck = .ok lay := by rw [setInput_layoutCheck, hlay']
    obtain ⟨hB, hsame⟩ := decodedState_of_encoded hlay hu hfits hencode
    have hfit : t.obuf.length ≤ Config.bufSize := fencode_obuf_length ht
    refine ⟨_, execAll_refill_fdecode hu hfit hB, decodedState_err, hsame, fun i hi => ?_⟩
    obtain ⟨hle, hlen, -, -⟩ := layoutCheck_ok hlay
    obtain ⟨-, hlen', -, -⟩ := layoutCheck_ok hu
    rw [decodedState_present hu (hi.trans_le hle), decide_eq_true (by rwa [← hlen', hlen])]

/-- Settles O48, at level 2 through level 1. -/
theorem byteExactReencode : Obligations.ByteExactReencode :=
  ⟨fun _ _ _ _ _ hadm hB => ⟨_, fieldDecode_of_le hadm hB, fieldEncode_decodedRecord hadm hB⟩,
    fun _ _ hlay hB => ⟨_, _, exec_fdecode_of_le hlay hB, 
      exec_fencode_of_fieldEncode (decodedState_layoutCheck.trans hlay) (fieldEncode_decodedState hlay hB), rfl, rfl⟩⟩

end Sys2Proof.Proofs
end

section
/-! PROOFS. No command of one unit meets the other unit's state: it leaves that state, and with that state replaced it
answers the same (41_field_codec.md R155). -/

namespace Sys2Proof.Proofs

open Sys2Proof Sys2Proof.Machine Sys2Proof.Laws

theorem parseWrites_withFieldStateOf (r : ParseOut) (s f : State) :
    parseWrites r (s.withFieldStateOf f) = (parseWrites r s).withFieldStateOf f := by
  unfold parseWrites
  split <;> rfl

section Units

variable {i : Instr} {s t : State}

/-- A field-codec command keeps the frame-codec state. -/
theorem exec_keeps_frame_state (h : exec i s = .next t) (hi : i.isFieldCommand = true) : t.withFrameStateOf s = t := by
  cases exec_writes h with
  | channel | output | record => rfl
  | frame | noFrame | push | overflow | clearInput => cases hi

/-- A frame-codec command keeps the field-codec state. -/
theorem exec_keeps_field_state (h : exec i s = .next t) (hi : i.isFrameCommand = true) : t.withFieldStateOf s = t := by
  cases exec_writes h with
  | channel | output | frame | noFrame => rfl
  | record | push | overflow | clearInput => cases hi

/-- With the frame-codec state replaced a field-codec command answers the same, with that state in its next state. -/
theorem exec_withFrameStateOf (h : exec i s = .next t) (hi : i.isFieldCommand = true) (f : State) :
    exec i (s.withFrameStateOf f) = .next (t.withFrameStateOf f) := by
  have hcheck : (s.withFrameStateOf f).layoutCheck = s.layoutCheck := rfl
  simp only [Instr.isFieldCommand, Bool.or_eq_true, decide_eq_true_eq] at hi
  cases hlay : s.layoutCheck with
  | error info =>
    obtain (rfl | rfl) | rfl := hi
    · cases (exec_lsize_of_error hlay).symm.trans h
      exact exec_lsize_of_error (hcheck.trans hlay)
    · cases (exec_fdecode_of_error hlay).symm.trans h
      exact exec_fdecode_of_error (hcheck.trans hlay)
    · cases (exec_fencode_of_layout_error hlay).symm.trans h
      exact exec_fencode_of_layout_error (hcheck.trans hlay)
  | ok lay =>
    obtain (rfl | rfl) | rfl := hi
    · cases (exec_lsize_of_ok hlay).symm.trans h
      exact exec_lsize_of_ok (hcheck.trans hlay)
    · by_cases hB : s.ibuf.length < totalSize lay
      · cases (exec_fdecode_of_lt hlay hB).symm.trans h
        exact exec_fdecode_of_lt (hcheck.trans hlay) hB
      · cases (exec_fdecode_of_le hlay (Nat.not_lt.mp hB)).symm.trans h
        exact exec_fdecode_of_le (hcheck.trans hlay) (Nat.not_lt.mp hB)
    · cases herr : firstFieldError s.encodeError 0 lay with
      | some p =>
        cases (exec_fencode_of_error hlay herr).symm.trans h
        exact exec_fencode_of_error (hcheck.trans hlay) herr
      | none =>
        cases (exec_fencode_of_none hlay herr).symm.trans h
        exact exec_fencode_of_none (hcheck.trans hlay) herr

/-- With the field-codec state replaced a frame-codec command answers the same, with that state in its next state. -/
theorem exec_withFieldStateOf (h : exec i s = .next t) (hi : i.isFrameCommand = true) (f : State) :
    exec i (s.withFieldStateOf f) = .next (t.withFieldStateOf f) := by
  simp only [Instr.isFrameCommand, Bool.or_eq_true, decide_eq_true_eq] at hi
  obtain (rfl | rfl) | rfl := hi
  · by_cases hP : s.ibuf.length ≤ 255
    · cases (exec_fbuild_of_le hP).symm.trans h
      exact exec_fbuild_of_le (s := s.withFieldStateOf f) hP
    · cases (exec_fbuild_of_gt (Nat.not_le.mp hP)).symm.trans h
      exact exec_fbuild_of_gt (s := s.withFieldStateOf f) (Nat.not_le.mp hP)
  · cases (exec_fprobe s).symm.trans h
    rfl
  · have hparse : stateParse (s.withFieldStateOf f) = stateParse s := rfl
    cases (exec_fparse s).symm.trans h
    rw [exec_fparse, hparse, parseWrites_withFieldStateOf]

end Units

/-- Settles O54: each unit's commands keep the other unit's state, and answer the same whatever it is. -/
theorem unitsAreIndependent : Obligations.UnitsAreIndependent := by
  refine ⟨fun i s f hi => ?_, fun i s f hi => ?_⟩ <;> obtain ⟨t, ht⟩ := exec_total i s
  · exact ⟨t, ht, exec_keeps_frame_state ht hi, exec_withFrameStateOf ht hi f⟩
  · exact ⟨t, ht, exec_keeps_field_state ht hi, exec_withFieldStateOf ht hi f⟩

end Sys2Proof.Proofs
end

section
/-! PROOFS. The result channel and ILLEGAL: no command sees what an earlier one reported, IOVF alone outlives commands,
and a reserved CMD word reports itself (60_exceptions.md R173, R175). -/

namespace Sys2Proof.Proofs

open Sys2Proof Sys2Proof.Machine Sys2Proof.Laws

/-! ## The result channel (R173) -/

/-- No command reads the result channel, and each one's last write is the whole of it: so the outcomes from two states
that differ there only are equal branch by branch. -/
theorem exec_of_other_channel {i : Instr} (hi : i.isCommand = true) (s : State) (e : ErrCode) (h c : Bool) (r : Half) :
    exec i { s with err := e, hdrOk := h, csumOk := c, result := r } = exec i s := by
  cases i with
  | fbuild | fprobe | fparse | lsize | fdecode | fencode => rfl
  | illegalZero | illegalSeven | illegalHigh | illegalMbz => rfl
  | ipush | iclr => cases hi

/-! ## Clearing IOVF (R173) -/

theorem exec_ipush_keeps_iovf {s t : State} {b : Byte} (h : exec (.ipush b) s = .next t) (hs : s.iovf = true) :
    t.iovf = true := by
  obtain ⟨-, rfl⟩ | ⟨-, rfl⟩ := ipush_cases h
  · exact hs
  · rfl

/-- Of the steps that change IOVF (`step_iovf`) an IPUSH only sets it. -/
theorem step_clears_iovf {s t : State} (h : step s = .next t) (hs : s.iovf = true) (ht : t.iovf = false) :
    (∃ a v rest, s.pending = .write a v :: rest ∧ locate a = .iclr) ∨ ∃ rest, s.pending = .reset :: rest := by
  obtain ⟨a, v, rest, hp, hl | hl⟩ | hreset := step_iovf h (by simp [hs, ht])
  · have hd : decodeWrite a v = .ok (.ipush (v.extractLsb' 0 8)) := by rw [decodeWrite, hl]
    have he := (stepRunsDecodedInstruction _ _ _ _ _ hp hd).symm.trans h
    exact absurd (exec_ipush_keeps_iovf he hs) (by simp [ht])
  · exact .inl ⟨a, v, rest, hp, hl⟩
  · exact .inr hreset

/-- Settles O51: a command's outcome has the result channel of its own, and IOVF is no part of that. -/
theorem resultChannelIsOverwritten : Obligations.ResultChannelIsOverwritten :=
  ⟨fun _ s e h c r hi => exec_of_other_channel hi s e h c r, fun _ _ => step_clears_iovf⟩

/-! ## ILLEGAL (R175) -/

theorem illegalOp_eq (v : Word) (s : State) : illegalOp v s = .next { s with
    err := .illegalOp, hdrOk := false, csumOk := false, result := v.extractLsb' 0 16 } := by
  rw [illegalOp, raise_eq, State.setChannel, BitVec.ofNat_toNat, BitVec.setWidth_eq]

theorem reserved_high_low_half (low : BitVec 3) :
    ((1 : BitVec 29) ++ low).extractLsb' 0 16 = BitVec.ofNat 16 (8 + low.toNat) := by
  revert low; decide

theorem low_half_eq (v : Word) : v.extractLsb' 0 16 = BitVec.ofNat 16 (v.toNat % 0x10000) :=
  BitVec.eq_of_toNat_eq (by simp)

/-- Every reserved CMD word runs ILLEGAL on itself, whichever of the table's four rows it falls to. -/
theorem exec_decodeCmd_of_reserved {v : Word} (h : v.toNat = 0 ∨ 7 ≤ v.toNat) (s : State) :
    exec (decodeCmd v) s = illegalOp v s := by
  by_cases hhigh : v.toNat / 16 = 0
  · have hrow : v = 0 ∨ v = 7 ∨ 8 ≤ v.toNat := by bv_omega
    obtain rfl | rfl | hge := hrow
    · rfl
    · rfl
    · rw [← reserved_high_word hge (by omega), decodeCmd_reserved_high]
      rfl
  · rw [decodeCmd_of_high_bits (mt high_bits_eq_zero_iff.mp hhigh)]
    rfl

/-- Settles O50: each row reports the low half of its own word. -/
theorem illegalReportsTheWord : Obligations.IllegalReportsTheWord := by
  refine fun s low v => ⟨illegalOp_eq 0 s, illegalOp_eq 7 s, ?_, ?_, fun h => ?_⟩
  · rw [← reserved_high_low_half]
    exact illegalOp_eq _ s
  · rw [← low_half_eq]
    exact illegalOp_eq v s
  · rw [busWrite_instr (decodeWrite_cmd v), exec_decodeCmd_of_reserved h, illegalOp_eq]

end Sys2Proof.Proofs
end

section
/-! PROOFS. A new layout invalidates the record: the store that clears RPRES, and FENCODE where no field is present
(70_reset_and_hazards.md R196). -/

namespace Sys2Proof.Proofs

open Sys2Proof Sys2Proof.Machine Sys2Proof.Laws

/-- A write to LCOUNT or LAYOUT starts no instruction; its store clears RPRES and keeps the rest of the record. -/
theorem busWrite_layout_record {a : Addr} (hl : locate a = .lcount ∨ ∃ i, locate a = .layout i) (v : Word) (s : State) :
    ∃ t, busWrite a v s = .next t ∧ t.rpres = 0 ∧ t.rval = s.rval ∧ t.rimg = s.rimg := by
  obtain hl | ⟨i, hl⟩ := hl <;> exact ⟨_, busWrite_of_locate hl nofun v s, rfl, rfl, rfl⟩

/-- Field 0 is the first to fail where no field is present. -/
theorem exec_fencode_of_nothing_present {s : State} {lay : Layout Nat} (hlay : s.layoutCheck = .ok lay)
    (hcount : 0 < s.lcount.toNat) (hrpres : s.rpres = 0) :
    exec .fencode s = .next ((s.setOutput []).setChannel .missingField false false 0) := by
  obtain ⟨-, hlen, -, -⟩ := layoutCheck_ok hlay
  have habsent : s.rpres.getLsbD 0 = false := hrpres ▸ rfl
  have hfirst : FailsAt s.encodeError lay 0 .missingField :=
    ⟨_, List.getElem?_eq_getElem (hlen ▸ hcount), encodeError_eq_some_iff.mpr (.inl ⟨habsent, rfl⟩)⟩
  exact exec_fencode_of_error hlay (firstFieldError_of_failsAt hfirst nofun)

/-- Settles O14: the write leaves no field present, and FENCODE then fails at field 0. -/
theorem layoutWritesInvalidateRecord : Obligations.LayoutWritesInvalidateRecord := by
  intro s a v hl
  obtain ⟨t, ht, hrpres, hrval, hrimg⟩ := busWrite_layout_record hl v s
  exact ⟨t, ht, hrpres, hrval, hrimg, fun _ hlay hcount => exec_fencode_of_nothing_present hlay hcount hrpres⟩

end Sys2Proof.Proofs
end

section
/-! PROOFS. Reset: the values it leaves, what each command gives there, and the invariant's base case
(70_reset_and_hazards.md R190-R192). -/

namespace Sys2Proof.Proofs

open Sys2Proof Sys2Proof.Machine Sys2Proof.Laws

/-! ## The reset values (R190) -/

theorem reset_arrays (i : Fin 64) : State.reset.layout.get i = 0 ∧ State.reset.rval.get i = 0 :=
  ⟨Vector.getElem_replicate i.isLt, Vector.getElem_replicate i.isLt⟩

/-- Every window is empty or 0 at reset, RIMG on both sides of BUF_SIZE. -/
theorem reset_windows (i : Nat) : State.reset.readLoc (.fpay i) = 0 ∧ State.reset.readLoc (.obuf i) = 0 ∧
    State.reset.readLoc (.ibuf i) = 0 ∧ State.reset.readLoc (.rimg i) = 0 :=
  ⟨rfl, rfl, rfl, ite_self 0⟩

/-- Settles O55: the arrays and windows index by index, every other piece by its value. -/
theorem resetStateValues : Obligations.ResetStateValues :=
  ⟨rfl, rfl, rfl, rfl, rfl, rfl, rfl, rfl, rfl, rfl, rfl, rfl, rfl, rfl, rfl, rfl, rfl, rfl, rfl, rfl,
    reset_arrays, rfl, read_nil, rfl, rfl, reset_windows⟩

theorem step_reset {s : State} {rest : List HostEvent} (hp : s.pending = .reset :: rest) :
    step s = .next { State.reset with pending := rest, answers := s.answers } :=
  step_cons hp

/-- Settles O56: the step answers the reset state but for the host's side of the bus. -/
theorem resetLeavesTheResetValues : Obligations.ResetLeavesTheResetValues := fun _ _ hp =>
  ⟨_, step_reset hp, rfl, rfl, rfl, rfl, rfl, rfl, rfl, rfl, rfl, rfl, rfl, rfl, rfl, rfl, rfl, rfl, rfl, rfl, rfl,
    rfl, rfl, rfl, reset_arrays, rfl, read_nil, rfl⟩

/-! ## Commands in the reset state (R192) -/

/-- LCOUNT is 0, so the layout has no field. -/
theorem reset_layoutCheck : State.reset.layoutCheck = .ok [] := rfl

/-- An empty layout decodes to an empty record, which is the reset state's own. -/
theorem decodedState_reset : decodedState State.reset [] = State.reset := by
  have hrval : (State.reset.decodeRecord Config.nativeOrder []).rval = State.reset.rval :=
    Vector.ext fun i hi => (decodeRecord_rval_of_none (i := ⟨i, hi⟩) rfl).trans (reset_arrays ⟨i, hi⟩).2.symm
  have hwritten := eq_of_setRecord (t := decodedState State.reset []) rfl
  rw [decodedState_rval, hrval] at hwritten
  exact hwritten

theorem exec_fbuild_reset : exec .fbuild State.reset =
    .next { State.reset with obuf := [0x57, 0xAB, 0x00, 0x00, 0x00, 0x02], result := 6 } := by
  have hframe : stateFrame State.reset = [0x57, 0xAB, 0x00, 0x00, 0x00, 0x02] := by decide
  rw [exec_fbuild_of_le (Nat.zero_le _), hframe]
  rfl

theorem exec_fparse_reset : exec .fparse State.reset = .next { State.reset with err := .insufficientData } := by
  have hparse : stateParse State.reset = ⟨.err .insufficientData, 0, false, false⟩ :=
    frameParse_of_short (Nat.zero_lt_succ 4)
  rw [exec_fparse, hparse]
  rfl

/-- Settles O57: each command's outcome for an empty IBUF and an empty layout. -/
theorem commandsFromReset : Obligations.CommandsFromReset :=
  ⟨exec_fprobe _, exec_fparse_reset, exec_fbuild_reset, exec_lsize_of_ok reset_layoutCheck,
    (exec_fdecode_of_le reset_layoutCheck (Nat.zero_le _)).trans (congrArg _ decodedState_reset),
    exec_fencode_of_none reset_layoutCheck rfl⟩

/-! ## The invariant at reset -/

/-- Settles O58: the reset input leaves a state that meets the invariant, and the reset state is its own. -/
theorem resetMeetsInvariant : Obligations.ResetMeetsInvariant := resetBlock_inv State.reset

end Sys2Proof.Proofs
end
